-- ==== Sys2Proof/Word.lean ====
section
/-! DEFINITION. The bit-vector types of the block's ports: R8, R61, R64, R65, R68. -/

namespace Sys2Proof

/-- A byte of a packed byte sequence (R40, R65). -/
abbrev Byte := BitVec 8

/-- A command word, `CMD_BITS = 64` (R8, R61). -/
abbrev Command := BitVec 64

/-- A register element on the input of `DPACK`: `REG_IN_BITS = 65`, signed two's complement (R8, R64). -/
abbrev RegElem := BitVec 65

/-- A register element on the output of `DUNPACK`: `VAL_OUT_BITS = 64`, unsigned (R8, R68). -/
abbrev RegValue := BitVec 64

/-- A sparse entry's item on a port, 128 bits (R65). -/
abbrev EntryItem := BitVec 128

end Sys2Proof
end

