-- ==== Sys2Proof/Config.lean ====
section
/-! DEFINITION. The parameters of R7 and R8. The spec leaves none open, so no free value stands here. -/

namespace Sys2Proof.Config

/-- `BINBITS_MIN` (R7). -/
def binbitsMin : Nat := 1

/-- `BINBITS_MAX` (R7). -/
def binbitsMax : Nat := 64

/-- `CEILING_BITS`, the greatest total bit count of one operation; a total equal to it is legal (R7). -/
def ceilingBits : Nat := 2 ^ 20

/-- `RBITS_DEFAULT`, supplied by the assembler only (R7, R79). -/
def rbitsDefault : Nat := 6

/-- `ACC_BITS`, the width of the accumulator (R8, R29). -/
def accBits : Nat := 2 ^ 20

/-- `B_MAX` (R8, R133). -/
def bMax : Nat := 64

/-- `RBITS_MAX` (R8, R133). -/
def rbitsMax : Nat := 64

/-- `ENTRYBITS_MIN` (R8, R133). -/
def entrybitsMin : Nat := 1

end Sys2Proof.Config
end

