-- ==== Sys2Proof/Syntax.lean ====
section
/-! DEFINITION. The four operations of spec/opcode_table.json, with their scalar operands as the numbers the
command word's fields stand for (R61 to R63), in the source's argument order (R78). The sequence operand is
the request's payload (R60) and no part of the instruction. -/

namespace Sys2Proof

/-- One operation with its scalar operands (R62). -/
inductive Instr where
  /-- `DPACK registers, binbits` (R110, R115). -/
  | dpack (binbits : Nat)
  /-- `DUNPACK data, m, binbits` (R117, R121). -/
  | dunpack (m : Int) (binbits : Nat)
  /-- `SCOMPRESS entries, b, rbits` (R132, R135). -/
  | scompress (b rbits : Nat)
  /-- `SDECOMPRESS data, b, rbits` (R139, R142). -/
  | sdecompress (b rbits : Nat)
deriving DecidableEq, Repr

end Sys2Proof
end

