-- ==== Sys2Proof/WellFormed.lean ====
section
/-! DEFINITION. An instruction is well-formed when a command word can carry it: its scalars fit the fields of
R61. A scalar that fits but is out of an operation's range is well-formed; the operation rejects it (R76). -/

namespace Sys2Proof

/-- The scalar fits the 8-bit unsigned field `W` or `B` (R61, R63). -/
def fitsWidthField (v : Nat) : Bool := decide (v < 256)

/-- The count fits the 32-bit signed field `M` (R61, R63). -/
def fitsCountField (m : Int) : Bool := decide (-2147483648 ≤ m ∧ m < 2147483648)

/-- Every scalar fits its field of the command word (R61). -/
def Instr.wellFormed : Instr → Bool
  | .dpack binbits => fitsWidthField binbits
  | .dunpack m binbits => fitsCountField m && fitsWidthField binbits
  | .scompress b rbits => fitsWidthField b && fitsWidthField rbits
  | .sdecompress b rbits => fitsWidthField b && fitsWidthField rbits

/-- `Instr.wellFormed` as a proposition. -/
abbrev Instr.WellFormed (i : Instr) : Prop := i.wellFormed = true

end Sys2Proof
end

