-- ==== Sys2Proof/Decode.lean ====
section
/-! DEFINITION. The command word of R61, the opcode map of R62, the decoder, the encoder, and the assembler's
default of R79. -/

namespace Sys2Proof

/-- Why a command word is illegal: the must-be-zero field that is not zero (R75). The response does not say
which (R155); the name is the model's. -/
inductive IllegalWord where
  /-- `RSV0`, bits 7:2, is not zero. -/
  | rsv0NotZero
  /-- `RSV1`, bits 31:24, is not zero. -/
  | rsv1NotZero
  /-- `B`, bits 23:16, is not zero for a dense operation. -/
  | bNotZero
  /-- `M`, bits 63:32, is not zero for an operation other than `DUNPACK`. -/
  | mNotZero
deriving DecidableEq, Repr

/-- A row of the opcode map: mnemonic, match and mask (R62). -/
structure OpcodeRow where
  mnemonic : String
  pattern : Command
  mask : Command
deriving DecidableEq, Repr

namespace CommandWord

/-- `OP`, bits 1:0 (R61). -/
def op (c : Command) : BitVec 2 := c.extractLsb' 0 2

/-- `RSV0`, bits 7:2 (R61). -/
def rsv0 (c : Command) : BitVec 6 := c.extractLsb' 2 6

/-- `W`, bits 15:8 (R61). -/
def w (c : Command) : BitVec 8 := c.extractLsb' 8 8

/-- `B`, bits 23:16 (R61). -/
def b (c : Command) : BitVec 8 := c.extractLsb' 16 8

/-- `RSV1`, bits 31:24 (R61). -/
def rsv1 (c : Command) : BitVec 8 := c.extractLsb' 24 8

/-- `M`, bits 63:32 (R61). -/
def m (c : Command) : BitVec 32 := c.extractLsb' 32 32

/-- The command word with the given fields and zero in `RSV0` and `RSV1`: the picture of R61. -/
def assemble (m : BitVec 32) (b w : BitVec 8) (op : BitVec 2) : Command :=
  m ++ 0#8 ++ b ++ w ++ 0#6 ++ op

end CommandWord

/-- The opcode map in the order of `OP` (R62). -/
def opcodeTable : List OpcodeRow :=
  [ ⟨"DPACK", 0x0000000000000000#64, 0xFFFFFFFFFFFF00FF#64⟩
  , ⟨"DUNPACK", 0x0000000000000001#64, 0x00000000FFFF00FF#64⟩
  , ⟨"SCOMPRESS", 0x0000000000000002#64, 0xFFFFFFFFFF0000FF#64⟩
  , ⟨"SDECOMPRESS", 0x0000000000000003#64, 0xFFFFFFFFFF0000FF#64⟩ ]

/-- The row's mnemonic of an instruction (R62). -/
def Instr.mnemonic : Instr → String
  | .dpack _ => "DPACK"
  | .dunpack _ _ => "DUNPACK"
  | .scompress _ _ => "SCOMPRESS"
  | .sdecompress _ _ => "SDECOMPRESS"

/-- The operation that `OP` selects, with its scalars: widths zero-extended, `M` sign-extended (R62, R63). -/
def selectOperation (op : BitVec 2) (w b : BitVec 8) (m : BitVec 32) : Instr :=
  if op = 0#2 then .dpack w.toNat
  else if op = 1#2 then .dunpack m.toInt w.toNat
  else if op = 2#2 then .scompress b.toNat w.toNat
  else .sdecompress b.toNat w.toNat

/-- The first must-be-zero field of the word that is not zero, if any (R62, R75). -/
def illegalField (c : Command) : Option IllegalWord :=
  if CommandWord.rsv0 c ≠ 0#6 then some .rsv0NotZero
  else if CommandWord.rsv1 c ≠ 0#8 then some .rsv1NotZero
  else if (CommandWord.op c = 0#2 ∨ CommandWord.op c = 1#2) ∧ CommandWord.b c ≠ 0#8 then some .bNotZero
  else if CommandWord.op c ≠ 1#2 ∧ CommandWord.m c ≠ 0#32 then some .mNotZero
  else none

/-- The instruction of a command word, or the name of the reason it is illegal (R62, R75). -/
def decode (c : Command) : Except IllegalWord Instr :=
  match illegalField c with
  | some why => .error why
  | none => .ok (selectOperation (CommandWord.op c) (CommandWord.w c) (CommandWord.b c) (CommandWord.m c))

/-- The command word of a well-formed instruction (R61, R62). -/
def encode : Instr → Command
  | .dpack binbits => CommandWord.assemble 0#32 0#8 (BitVec.ofNat 8 binbits) 0#2
  | .dunpack m binbits => CommandWord.assemble (BitVec.ofInt 32 m) 0#8 (BitVec.ofNat 8 binbits) 1#2
  | .scompress b rbits => CommandWord.assemble 0#32 (BitVec.ofNat 8 b) (BitVec.ofNat 8 rbits) 2#2
  | .sdecompress b rbits => CommandWord.assemble 0#32 (BitVec.ofNat 8 b) (BitVec.ofNat 8 rbits) 3#2

/-- The instruction the decoder reads from a word whose lowest `nbits` bits are those of `w` and whose other
bits are zero; a word longer than the one format has no instruction (R61, R77). -/
def decodeTableWord (nbits w : Nat) : Option Instr :=
  if nbits ≤ 64 then
    match decode (BitVec.ofNat 64 (w % 2 ^ nbits)) with
    | .ok i => some i
    | .error _ => none
  else none

/-- The pseudo-instruction `SCOMPRESS entries, b` (R79). -/
def assembleScompressDefault (b : Nat) : Instr := .scompress b Config.rbitsDefault

/-- The pseudo-instruction `SDECOMPRESS data, b` (R79). -/
def assembleSdecompressDefault (b : Nat) : Instr := .sdecompress b Config.rbitsDefault

end Sys2Proof
end

