-- ==== Sys2Proof/Machine/State.lean ====
section
/-! DEFINITION. What the block holds, what its ports carry, and the state after reset: R20 to R32, R60, R64 to
R69. There is no memory and no address space (R30), so State holds none. -/

namespace Sys2Proof.Machine

/-- A sparse entry, bits 127:64 and 63:0 of its item (R65). -/
structure Entry where
  index : BitVec 64
  rho : BitVec 64
deriving DecidableEq, Repr

/-- The kinds of item an input payload can hold (R27). -/
inductive InKind where
  | elements
  | bytes
  | entries
deriving DecidableEq, Repr

/-- The kinds of item an output payload can hold (R27). -/
inductive OutKind where
  | bytes
  | values
  | entries
deriving DecidableEq, Repr

/-- An input payload: a finite sequence of items of one kind, of any length (R27, R28, R64, R65). -/
inductive InPayload where
  | elements (items : List RegElem)
  | bytes (items : List Byte)
  | entries (items : List Entry)
deriving DecidableEq, Repr

/-- An output payload: a finite sequence of items of one kind (R27, R67 to R69). -/
inductive OutPayload where
  | bytes (items : List Byte)
  | values (items : List RegValue)
  | entries (items : List Entry)
deriving DecidableEq, Repr

/-- A request: one command word and one input payload (R60). -/
structure Request where
  cmd : Command
  pin : InPayload
deriving DecidableEq, Repr

/-- The three error kinds (R150). -/
inductive ErrorKind where
  /-- Status 1, causes in R151. -/
  | invalidArgument
  /-- Status 2, cause in R152. -/
  | insufficientData
  /-- Status 3, causes in R153. -/
  | capacityExceeded
deriving DecidableEq, Repr

/-- The status of a response; its 2-bit codes are `Status.code` (R66). -/
inductive Status where
  | ok
  | error (e : ErrorKind)
deriving DecidableEq, Repr

/-- A response: what the ports `STATUS` and `POUT` carry (R66). -/
structure Response where
  status : Status
  pout : OutPayload
deriving DecidableEq, Repr

/-- The state of the block and of the host side of its ports. -/
structure State where
  /-- The requests the host has still to present, in order (R51, R60); the model's own field, log 1. -/
  requests : List Request
  /-- The responses given so far, oldest first (R27, R51); the model's own field, log 2. -/
  responses : List Response
  /-- An operation has been accepted and has not given its response (R32, R183), log 4. -/
  inProgress : Bool
  /-- The input payload of the accepted request (R27). -/
  pin : InPayload
  /-- `OP` of the accepted command word (R22). -/
  op : BitVec 2
  /-- `W` of the accepted command word (R22). -/
  w : BitVec 8
  /-- `B` of the accepted command word (R22). -/
  b : BitVec 8
  /-- `M` of the accepted command word (R22). -/
  m : BitVec 32
  /-- The number of fields of the operation (R22), log 7. -/
  n : Nat
  /-- The index of the field last placed or extracted (R22), log 7. -/
  i : Nat
  /-- The total bit count of the operation (R22, R63), log 7. -/
  totalBits : Nat
  /-- The accumulator (R29, R90). -/
  acc : BitVec Config.accBits
deriving DecidableEq, Repr

/-- Reasons for a fault. There is none: every error the spec describes ends an operation with a response and
the block goes on (R150, R156, R158), so no step of this model faults. -/
inductive Fault where
deriving DecidableEq, Repr

/-- Reasons for a refusal. -/
inductive Refusal where
  /-- Raised by `exec` for an instruction that has no meaning yet; no arm raises it. Safe. -/
  | notModelled (mnemonic : String)
  /-- Raised by each of the four operations when the payload is not of the kind the operation takes. A host
  cannot present it, since the kind of `PIN` depends on `OP` (R27, R150); log 5. Safe. -/
  | payloadKind
  /-- Raised by `step` when an operation is still in progress: the spec gives no meaning to a request presented
  then (R183), and no step of this model leaves such a state; log 4. Safe. -/
  | operationInProgress
deriving DecidableEq, Repr

/-- The state after reset: idle, no request accepted, no response pending, `ACC` zero (R32, R180). `OP`, `W`,
`B`, `M`, `n`, `i`, `total_bits` and `PIN` are DESIGN CHOICE values (log 6): the spec leaves them unspecified. -/
def State.reset : State where
  requests := []
  responses := []
  inProgress := false
  pin := .bytes []
  op := 0#2
  w := 0#8
  b := 0#8
  m := 0#32
  n := 0
  i := 0
  totalBits := 0
  acc := 0#Config.accBits

end Sys2Proof.Machine
end

