-- ==== Sys2Proof/Machine/Ops.lean ====
section
/-! DEFINITION. The operations every instruction shares: lengths and masks (R11), byte sequences (R40 to R43),
the accumulator primitives (R90 to R96), acceptance of a request (R22, R55) and the response, by result or by
error (R66, R156). -/

namespace Sys2Proof.Machine

/-- `mask(w) = 2^w - 1` (R11). -/
def mask (w : Nat) : Nat := 2 ^ w - 1

/-- `ceil(t / 8)` (R11). -/
def bytesFor (t : Nat) : Nat := (t + 7) / 8

/-- The value of a packed byte sequence, byte 0 least significant (R40, R42). -/
def val : List Byte → Nat
  | [] => 0
  | d :: ds => d.toNat + 256 * val ds

/-- `MemRead(k, 1)`: byte `k` of the input byte payload, defined only below its length (R43). -/
def memRead (din : List Byte) (k : Nat) : Option Byte := din[k]?

/-- `MemWrite(k, 1, v)`: byte `k` of the output byte payload becomes `v` (R43). -/
def memWrite (dout : List Byte) (k : Nat) (v : Byte) : List Byte := dout.set k v

/-! ### Working values (R22) -/

/-- `n` is written by the operation's rule (R22). -/
def State.setN (n : Nat) (s : State) : State := { s with n := n }

/-- `total_bits` is written by the operation's rule (R22, R63). -/
def State.setTotalBits (t : Nat) (s : State) : State := { s with totalBits := t }

/-- `i` is written by the field loop (R22). -/
def State.setI (i : Nat) (s : State) : State := { s with i := i }

/-- `ACC` is written by `CLEAR`, `PLACE` and `LOAD` only (R22). -/
def State.setAcc (v : BitVec Config.accBits) (s : State) : State := { s with acc := v }

/-! ### The accumulator primitives -/

/-- `CLEAR` (R91). -/
def clear (s : State) : State := s.setAcc 0#Config.accBits

/-- `PLACE(v, o)`: `ACC <- (ACC | (v << o)) mod 2^ACC_BITS` (R92). -/
def place (v o : Nat) (s : State) : State :=
  s.setAcc (BitVec.ofNat Config.accBits (s.acc.toNat ||| (v <<< o)))

/-- `SLICE(nbytes)`: byte `k` of the output is bits `8k+7 .. 8k` of `ACC` (R94). -/
def slice (nbytes : Nat) (s : State) : List Byte :=
  (List.range nbytes).map fun k => BitVec.ofNat 8 ((s.acc.toNat >>> (8 * k)) &&& 0xFF)

/-- One turn of `LOAD`: byte `k` is OR-ed in at bit `8k` (R95). -/
def loadByte (din : List Byte) (s : State) (k : Nat) : State :=
  match memRead din k with
  | some d => s.setAcc (BitVec.ofNat Config.accBits (s.acc.toNat ||| (d.toNat <<< (8 * k))))
  | none => s

/-- `LOAD(nbytes)` (R95). -/
def load (nbytes : Nat) (din : List Byte) (s : State) : State :=
  (List.range nbytes).foldl (loadByte din) s

/-- `EXTRACT(o, w)`: bits `o+w-1 .. o` of `ACC` (R96). -/
def extract (o w : Nat) (s : State) : Nat := (s.acc.toNat >>> o) &&& mask w

/-! ### The field loops (R147) -/

/-- The packing loop from index `i` on: field `i` is placed at offset `i * width`, in rising order (R90, R115, R135). -/
def placeFields (width : Nat) : List Nat → Nat → State → State
  | [], _, s => s
  | f :: fs, i, s => placeFields width fs (i + 1) (place f (i * width) (s.setI i))

/-- The fields the unpacking loop extracts: field `i` at offset `i * width`, for `i` below `n` (R90, R121, R142). -/
def extractFields (width n : Nat) (s : State) : List Nat :=
  (List.range n).map fun i => extract (i * width) width s

/-- What the unpacking loop writes: `i` counts from 0 to `n - 1` (R22, log 7). -/
def countFields (n : Nat) (s : State) : State := if n = 0 then s else s.setI (n - 1)

/-! ### Requests and responses -/

/-- The item kind of the input payload that `OP` takes (R27). -/
def inKindOf (op : BitVec 2) : InKind :=
  if op = 0#2 then .elements else if op = 2#2 then .entries else .bytes

/-- The item kind of the output payload that `OP` gives (R27). -/
def outKindOf (op : BitVec 2) : OutKind :=
  if op = 1#2 then .values else if op = 3#2 then .entries else .bytes

/-- The kind of an input payload's items. -/
def InPayload.kind : InPayload → InKind
  | .elements _ => .elements
  | .bytes _ => .bytes
  | .entries _ => .entries

/-- The empty input payload of a kind. -/
def InPayload.empty : InKind → InPayload
  | .elements => .elements []
  | .bytes => .bytes []
  | .entries => .entries []

/-- The empty output payload of a kind (R66), log 8. -/
def OutPayload.empty : OutKind → OutPayload
  | .bytes => .bytes []
  | .values => .values []
  | .entries => .entries []

/-- The number of items of an output payload. -/
def OutPayload.length : OutPayload → Nat
  | .bytes l => l.length
  | .values l => l.length
  | .entries l => l.length

/-- Acceptance of request `q`, with `rest` still to come: the operation is in progress, its payload is at `PIN`
and `OP`, `W`, `B`, `M` hold the command word's fields (R22, R27, R55). -/
def State.accept (q : Request) (rest : List Request) (s : State) : State :=
  { s with
    requests := rest
    inProgress := true
    pin := q.pin
    op := CommandWord.op q.cmd
    w := CommandWord.w q.cmd
    b := CommandWord.b q.cmd
    m := CommandWord.m q.cmd }

/-- The response is given and the operation is over (R27, R66). -/
def State.respond (r : Response) (s : State) : State :=
  { s with responses := s.responses ++ [r], inProgress := false }

/-- `return v`: status `OK` and the output payload (R12, R66). -/
def State.finish (out : OutPayload) (s : State) : State := s.respond ⟨.ok, out⟩

/-- `raise e`: the operation ends at once with the error's status and an empty output payload (R12, R156). It saves
nothing and goes to no handler, and there is no return from it (R157, R158). -/
def State.raise (k : OutKind) (e : ErrorKind) (s : State) : State := s.respond ⟨.error e, .empty k⟩

/-- The host adds a request to those it will present (R51, R148), log 1. -/
def State.present (q : Request) (s : State) : State := { s with requests := s.requests ++ [q] }

end Sys2Proof.Machine
end

