-- ==== Sys2Proof/Machine/Operands.lean ====
section
/-! DEFINITION. How operands are read and results are formed: register elements (R64), sparse items (R65, R69),
the composite sparse field (R72, R130, R131), the dense field (R115), and which requests a host can present (R27). -/

namespace Sys2Proof.Machine

/-- The integer a register element stands for, `sext_65` (R64). -/
def elementValue (x : RegElem) : Int := x.toInt

/-- The field `DPACK` places for an element: its value masked to `binbits` bits (R115). -/
def denseField (binbits : Nat) (x : RegElem) : Nat := (elementValue x).toNat &&& mask binbits

/-- An extracted field as an output element of `DUNPACK`, zero-extended to 64 bits (R68). -/
def denseValue (f : Nat) : RegValue := BitVec.ofNat 64 f

/-- `entrybits = b + rbits` (R63). -/
def entrybits (b rbits : Nat) : Nat := b + rbits

/-- The composite field `(index << rbits) | (rho & mask(rbits))`, not masked as a whole (R72, R130). -/
def sparseField (rbits : Nat) (e : Entry) : Nat :=
  (e.index.toNat <<< rbits) ||| (e.rho.toNat &&& mask rbits)

/-- The entry of a composite field: `(f >> rbits, f & mask(rbits))`, each zero-extended to 64 bits (R69, R131). -/
def sparseEntry (rbits f : Nat) : Entry :=
  ⟨BitVec.ofNat 64 (f >>> rbits), BitVec.ofNat 64 (f &&& mask rbits)⟩

/-- The entry count of `SDECOMPRESS`, inferred from the byte length (R140). -/
def entryCount (nbytes ebits : Nat) : Nat := (nbytes * 8) / ebits

/-- The 128-bit item of an entry: `index` in bits 127:64, `rho` in bits 63:0 (R65). -/
def Entry.toItem (e : Entry) : EntryItem := e.index ++ e.rho

/-- The entry of a 128-bit item (R65). -/
def Entry.ofItem (x : EntryItem) : Entry := ⟨x.extractLsb' 64 64, x.extractLsb' 0 64⟩

/-- A request a host can present: its payload is of the kind its `OP` takes (R27). -/
def Request.wellFormed (q : Request) : Bool := decide (q.pin.kind = inKindOf (CommandWord.op q.cmd))

/-- `Request.wellFormed` as a proposition. -/
abbrev Request.WellFormed (q : Request) : Prop := q.wellFormed = true

end Sys2Proof.Machine
end

