-- ==== Sys2Proof/Machine/Flags.lean ====
section
/-! DEFINITION. The block has no flags (R25). What an operation reports is the status of its response: the codes
of R66, and the conditions of R151 to R153 that raise an error. -/

namespace Sys2Proof.Machine

/-- The 2-bit code of a status (R66). -/
def Status.code : Status → BitVec 2
  | .ok => 0#2
  | .error .invalidArgument => 1#2
  | .error .insufficientData => 2#2
  | .error .capacityExceeded => 3#2

/-- `binbits < 1 or binbits > 64` (R111, R118). -/
def denseWidthBad (binbits : Nat) : Bool :=
  decide (binbits < Config.binbitsMin ∨ Config.binbitsMax < binbits)

/-- `m < 0` (R118). -/
def countNegative (m : Int) : Bool := decide (m < 0)

/-- `b > 64 or rbits > 64 or b + rbits = 0` (R133). -/
def sparseWidthBad (b rbits : Nat) : Bool :=
  decide (Config.bMax < b ∨ Config.rbitsMax < rbits ∨ entrybits b rbits < Config.entrybitsMin)

/-- `total_bits > 2^20` (R114, R119, R134, R141). -/
def overCeiling (totalBits : Nat) : Bool := decide (Config.ceilingBits < totalBits)

/-- `registers[i] < 0 or registers[i] > mask(binbits)` (R113). -/
def elementBad (binbits : Nat) (x : RegElem) : Bool :=
  decide (elementValue x < 0 ∨ (mask binbits : Int) < elementValue x)

/-- `len(data) < need` (R120). -/
def dataShort (len need : Nat) : Bool := decide (len < need)

end Sys2Proof.Machine
end

