-- ==== Sys2Proof/Machine/Dense.lean ====
section
/-! DEFINITION. The dense operations `DPACK` (R110 to R116) and `DUNPACK` (R117 to R122). -/

namespace Sys2Proof.Machine

/-- `DPACK` after its checks: `CLEAR`, the packing loop, `SLICE` (R115). -/
def packRegisters (binbits : Nat) (regs : List RegElem) (s : State) : State :=
  let s := placeFields binbits (regs.map (denseField binbits)) 0 (clear s)
  s.finish (.bytes (slice (bytesFor (regs.length * binbits)) s))

/-- `DPACK` on its registers: the checks in the order of R160, then the packing (R115). -/
def dpackRegisters (binbits : Nat) (regs : List RegElem) (s : State) : State :=
  let s := s.setN regs.length
  if denseWidthBad binbits then s.raise .bytes .invalidArgument
  else
    let s := s.setTotalBits (regs.length * binbits)
    if overCeiling (regs.length * binbits) then s.raise .bytes .capacityExceeded
    else if regs.any (elementBad binbits) then s.raise .bytes .invalidArgument
    else packRegisters binbits regs s

/-- `DPACK registers, binbits` (R115). -/
def execDpack (binbits : Nat) (s : State) : Host.Outcome State Fault Refusal :=
  match s.pin with
  | .elements regs => .next (dpackRegisters binbits regs s)
  | .bytes _ => .refused .payloadKind
  | .entries _ => .refused .payloadKind

/-- `DUNPACK` after its checks: `CLEAR`, `LOAD(need)`, the unpacking loop (R121). -/
def unpackRegisters (count binbits : Nat) (data : List Byte) (s : State) : State :=
  let s := load (bytesFor (count * binbits)) data (clear s)
  let out := (extractFields binbits count s).map denseValue
  (countFields count s).finish (.values out)

/-- `DUNPACK` on its data: the checks in the order of R160, then the unpacking (R121). -/
def dunpackData (m : Int) (binbits : Nat) (data : List Byte) (s : State) : State :=
  if denseWidthBad binbits then s.raise .values .invalidArgument
  else if countNegative m then s.raise .values .invalidArgument
  else
    let s := (s.setN m.toNat).setTotalBits (m.toNat * binbits)
    if overCeiling (m.toNat * binbits) then s.raise .values .capacityExceeded
    else if dataShort data.length (bytesFor (m.toNat * binbits)) then s.raise .values .insufficientData
    else unpackRegisters m.toNat binbits data s

/-- `DUNPACK data, m, binbits` (R121). -/
def execDunpack (m : Int) (binbits : Nat) (s : State) : Host.Outcome State Fault Refusal :=
  match s.pin with
  | .bytes data => .next (dunpackData m binbits data s)
  | .elements _ => .refused .payloadKind
  | .entries _ => .refused .payloadKind

end Sys2Proof.Machine
end

