-- ==== Sys2Proof/Machine/Sparse.lean ====
section
/-! DEFINITION. The sparse operations `SCOMPRESS` (R132 to R138) and `SDECOMPRESS` (R139 to R144). -/

namespace Sys2Proof.Machine

/-- `SCOMPRESS` after its checks: `CLEAR`, the packing loop with unmasked composite fields, `SLICE` (R135). -/
def packEntries (b rbits : Nat) (entries : List Entry) (s : State) : State :=
  let s := placeFields (entrybits b rbits) (entries.map (sparseField rbits)) 0 (clear s)
  s.finish (.bytes (slice (bytesFor (entries.length * entrybits b rbits)) s))

/-- `SCOMPRESS` on its entries: the checks in the order of R160, then the packing (R135). -/
def scompressEntries (b rbits : Nat) (entries : List Entry) (s : State) : State :=
  if sparseWidthBad b rbits then s.raise .bytes .invalidArgument
  else
    let s := (s.setN entries.length).setTotalBits (entries.length * entrybits b rbits)
    if overCeiling (entries.length * entrybits b rbits) then s.raise .bytes .capacityExceeded
    else packEntries b rbits entries s

/-- `SCOMPRESS entries, b, rbits` (R135). -/
def execScompress (b rbits : Nat) (s : State) : Host.Outcome State Fault Refusal :=
  match s.pin with
  | .entries items => .next (scompressEntries b rbits items s)
  | .elements _ => .refused .payloadKind
  | .bytes _ => .refused .payloadKind

/-- `SDECOMPRESS` after its checks: `CLEAR`, `LOAD` of all the data, the unpacking loop (R142). -/
def unpackEntries (b rbits : Nat) (data : List Byte) (s : State) : State :=
  let count := entryCount data.length (entrybits b rbits)
  let s := (load data.length data (clear s)).setN count
  let out := (extractFields (entrybits b rbits) count s).map (sparseEntry rbits)
  (countFields count s).finish (.entries out)

/-- `SDECOMPRESS` on its data: the checks in the order of R160, then the unpacking (R142). -/
def sdecompressData (b rbits : Nat) (data : List Byte) (s : State) : State :=
  if sparseWidthBad b rbits then s.raise .entries .invalidArgument
  else
    let s := s.setTotalBits (8 * data.length)
    if overCeiling (8 * data.length) then s.raise .entries .capacityExceeded
    else unpackEntries b rbits data s

/-- `SDECOMPRESS data, b, rbits` (R142). -/
def execSdecompress (b rbits : Nat) (s : State) : Host.Outcome State Fault Refusal :=
  match s.pin with
  | .bytes data => .next (sdecompressData b rbits data s)
  | .elements _ => .refused .payloadKind
  | .entries _ => .refused .payloadKind

end Sys2Proof.Machine
end

