-- ==== Sys2Proof/Machine/Dispatch.lean ====
section
/-! DEFINITION. The dispatch of R62: one arm per operation. -/

namespace Sys2Proof.Machine

/-- The meaning of one decoded instruction on the state of its accepted request (R62). -/
def exec (i : Instr) (s : State) : Host.Outcome State Fault Refusal :=
  match i with
  | .dpack binbits => Sys2Proof.Machine.execDpack binbits s
  | .dunpack m binbits => Sys2Proof.Machine.execDunpack m binbits s
  | .scompress b rbits => Sys2Proof.Machine.execScompress b rbits s
  | .sdecompress b rbits => Sys2Proof.Machine.execSdecompress b rbits s

end Sys2Proof.Machine
end

