-- ==== Sys2Proof/Machine/Handle.lean ====
section
/-! DEFINITION. The function of R62 on an accepted request, and the host's inputs (R148, R180, R181). -/

namespace Sys2Proof.Machine

/-- The response to an illegal command word: `InvalidArgument`, whatever the payload (R75). -/
def raiseIllegal (s : State) : State := s.raise (outKindOf s.op) .invalidArgument

/-- One request from acceptance to response: an illegal word is answered by `raiseIllegal`, a legal one by its
operation (R62, R75). -/
def handle (q : Request) (rest : List Request) (s : State) : Host.Outcome State Fault Refusal :=
  match decode q.cmd with
  | .ok i => exec i (s.accept q rest)
  | .error _ => .next (raiseIllegal (s.accept q rest))

/-- The host applies reset: an operation in progress is abandoned and a new run begins with no memory of the old
one (R180, R181), log 3. -/
def applyReset (_ : State) : State := State.reset

/-- The request whose command word has `nbits` bits `w` and zeros above, with the empty payload of its `OP`'s kind
(log 10). -/
def bareRequest (nbits w : Nat) : Request :=
  let c : Command := BitVec.ofNat 64 (w % 2 ^ nbits)
  ⟨c, .empty (inKindOf (CommandWord.op c))⟩

end Sys2Proof.Machine
end

