-- ==== Sys2Proof/Machine/Step.lean ====
section
/-! DEFINITION. One step: the block handles the next request, whole (R47, R51). -/

namespace Sys2Proof.Machine

/-- The block takes the next request the host presents and gives its response (R51). With no request it stays as it
is: it produces no response that no request asked for (R32), log 9. While an operation is in progress a request has no
meaning (R183), log 4. -/
def step (s : State) : Host.Outcome State Fault Refusal :=
  if s.inProgress then .refused .operationInProgress
  else
    match s.requests with
    | [] => .next s
    | q :: rest => handle q rest s

/-- `s` with the instruction's word as the next request the host presents, with an empty payload, and the block idle,
so that it is accepted (R51, R183), log 10. -/
def State.withFetchWord (s : State) (nbits w : Nat) : State :=
  { s with requests := bareRequest nbits w :: s.requests, inProgress := false }

end Sys2Proof.Machine
end

