-- ==== Sys2Proof/Machine/ByteBuffer.lean ====
section
/-! DEFINITION. The byte-buffer form of `PLACE` and `EXTRACT` (R104): the accumulator realised without one wide
integer. No meaning uses it; which form an implementation uses is not observable. -/

namespace Sys2Proof.Machine

/-- The bytes `j0 .. j1` that a field of width `w` at offset `o` lies in (R44, R104). -/
def fieldBytes (o w : Nat) : List Nat := List.range' (o / 8) ((o + w - 1) / 8 + 1 - o / 8)

/-- One turn of the byte-buffer `PLACE`: byte `j` receives its part of `v << s` (R104). -/
def bufferPlaceByte (v o : Nat) (dout : List Byte) (j : Nat) : List Byte :=
  match memRead dout j with
  | some d => memWrite dout j (d ||| BitVec.ofNat 8 (((v <<< (o % 8)) >>> (8 * (j - o / 8))) &&& 0xFF))
  | none => dout

/-- `PLACE(v, o)` on a byte buffer, for a field of width `w` (R104). -/
def bufferPlace (v o w : Nat) (dout : List Byte) : List Byte :=
  (fieldBytes o w).foldl (bufferPlaceByte v o) dout

/-- The term of byte `j` in the sum of the byte-buffer `EXTRACT` (R104). -/
def bufferTerm (o : Nat) (din : List Byte) (j : Nat) : Nat :=
  match memRead din j with
  | some d => d.toNat <<< (8 * (j - o / 8))
  | none => 0

/-- `EXTRACT(o, w)` on a byte buffer (R104). -/
def bufferExtract (o w : Nat) (din : List Byte) : Nat :=
  ((((fieldBytes o w).map (bufferTerm o din)).sum) >>> (o % 8)) &&& mask w

end Sys2Proof.Machine
end

