-- ==== Sys2Proof/Safety.lean ====
section
/-! DEFINITION. The words the claims are stated in: the invariant of the machine, the function of R62 and R51 read
off the machine, and the closed forms of R70, R100 and R136. -/

namespace Sys2Proof.Machine

/-- Sum of the fields at offsets `0, width, 2 * width, …` (R70, R100). -/
def fieldSum (width : Nat) (fields : List Nat) : Nat :=
  (fields.zipIdx.map fun p => p.1 * 2 ^ (p.2 * width)).sum

/-- OR of the fields shifted to offsets `0, width, 2 * width, …` (R136). -/
def fieldOr (width : Nat) (fields : List Nat) : Nat :=
  (fields.zipIdx.map fun p => p.1 <<< (p.2 * width)).foldl (· ||| ·) 0

/-- The element is legal for `DPACK` at width `binbits` (R113). -/
abbrev ElementInRange (binbits : Nat) (x : RegElem) : Prop := 0 ≤ x.toInt ∧ x.toInt ≤ ((2 ^ binbits - 1 : Nat) : Int)

/-- The entry satisfies the bounds the source asks of callers (R136, R137, R145). -/
abbrev EntryInRange (b rbits : Nat) (e : Entry) : Prop := e.index.toNat < 2 ^ b ∧ e.rho.toNat < 2 ^ rbits

/-- The response has the form the spec gives every response: empty on an error (R66), and at most `2^17` bytes
(R116) or `2^20` items (R147). -/
def Response.WellFormed (r : Response) : Prop :=
  (r.status ≠ .ok → r.pout.length = 0) ∧
  match r.pout with
  | .bytes l => l.length ≤ 2 ^ 17
  | .values l => l.length ≤ 2 ^ 20
  | .entries l => l.length ≤ 2 ^ 20

/-- The block is idle, every request to come can be presented, and every response given has the form of R66. -/
def State.Inv (s : State) : Prop :=
  s.inProgress = false ∧ (∀ q ∈ s.requests, q.WellFormed) ∧ (∀ r ∈ s.responses, r.WellFormed)

/-- The function `f` of R51 and R62: the response to a request presented right after reset, if there is one. -/
def blockFunction (q : Request) : Option Response :=
  match step { State.reset with requests := [q] } with
  | .next t => t.responses.head?
  | .fault _ => none
  | .refused _ => none

end Sys2Proof.Machine
end

