-- ==== Sys2Proof/Certificates/Slice0/Obligations.lean ====
section
/-! DEFINITION. The statements for the provers. Each docstring names the rule of spec/ it formalises. -/

open Sys2Proof Sys2Proof.Machine

/-! ### Encoding -/

/-- R61, R62: decoding the command word of a well-formed instruction gives the instruction back. -/
def Obligations.DecodeEncodeRoundTrip : Prop :=
  ∀ i : Instr, i.WellFormed → decode (encode i) = .ok i

/-- R61, R62: a word that decodes is the command word of the instruction it decodes to, which is well-formed. -/
def Obligations.DecodedWordIsItsEncoding : Prop :=
  ∀ (c : Command) (i : Instr), decode c = .ok i → i.WellFormed ∧ encode i = c

/-- R62: a word decodes to the operation of the row whose `(c & mask) = match`; the rows are disjoint. -/
def Obligations.DecodeFollowsOpcodeTable : Prop :=
  (∀ (c : Command) (i : Instr), decode c = .ok i →
    ∃ row ∈ opcodeTable, row.mnemonic = i.mnemonic ∧ c &&& row.mask = row.pattern) ∧
  (∀ (c : Command), ∀ row ∈ opcodeTable, c &&& row.mask = row.pattern →
    ∃ i, decode c = .ok i ∧ i.mnemonic = row.mnemonic) ∧
  (∀ (c : Command), ∀ row ∈ opcodeTable, ∀ row' ∈ opcodeTable,
    c &&& row.mask = row.pattern → c &&& row'.mask = row'.pattern → row = row')

/-- R63: the scalars are the fields of the word as numbers: `W` and `B` zero-extended, `M` sign-extended. -/
def Obligations.ScalarsAreFieldsOfTheWord : Prop :=
  ∀ (c : Command) (i : Instr), decode c = .ok i →
    let v : Nat := c.toNat
    let w : Nat := v / 2 ^ 8 % 2 ^ 8
    let b : Nat := v / 2 ^ 16 % 2 ^ 8
    let p : Nat := v / 2 ^ 32
    let m : Int := if p < 2 ^ 31 then (p : Int) else (p : Int) - 4294967296
    (v % 4 = 0 → i = .dpack w) ∧ (v % 4 = 1 → i = .dunpack m w) ∧
    (v % 4 = 2 → i = .scompress b w) ∧ (v % 4 = 3 → i = .sdecompress b w)

/-- R78: the spec's example command words decode to the requests they stand for, and a word with a bit of `RSV0` set
decodes to none. The name `rsv0NotZero` of the last clause is the model's choice (log 15): by R155 nothing carries
it. -/
def Obligations.ExampleWordsDecode : Prop :=
  decode 0x0000000000000400#64 = .ok (.dpack 4) ∧
  decode 0x0000000300000401#64 = .ok (.dunpack 3 4) ∧
  decode 0xFFFFFFFF00000401#64 = .ok (.dunpack (-1) 4) ∧
  decode 0x0000000000040602#64 = .ok (.scompress 4 6) ∧
  decode 0x0000000000040603#64 = .ok (.sdecompress 4 6) ∧
  decode 0x0000000000000404#64 = .error .rsv0NotZero

/-- R79: the assembler's forms without `rbits` have the command word of the form with `rbits = 6`, in which `W` is 6. -/
def Obligations.AssemblerSuppliesRbitsSix : Prop :=
  ∀ b : Nat,
    encode (assembleScompressDefault b) = encode (.scompress b 6) ∧
    encode (assembleSdecompressDefault b) = encode (.sdecompress b 6) ∧
    CommandWord.w (encode (assembleScompressDefault b)) = 6#8 ∧
    CommandWord.w (encode (assembleSdecompressDefault b)) = 6#8

/-- R75: a word is illegal exactly when a must-be-zero field is not zero, and its response is `(InvalidArgument,
[])` whatever the payload. That `ACC` is unchanged is the model's choice (log 7, DEDUCED), and no rule. -/
def Obligations.IllegalWordAnswersInvalidArgument : Prop :=
  ∀ (q : Request) (rest : List Request) (s : State), s.inProgress = false → s.requests = q :: rest →
    let c := q.cmd
    let illegal : Prop :=
      c.extractLsb' 2 6 ≠ 0 ∨ c.extractLsb' 24 8 ≠ 0 ∨
      ((c.extractLsb' 0 2 = 0 ∨ c.extractLsb' 0 2 = 1) ∧ c.extractLsb' 16 8 ≠ 0) ∨
      ((c.extractLsb' 0 2 = 0 ∨ c.extractLsb' 0 2 = 2 ∨ c.extractLsb' 0 2 = 3) ∧ c.extractLsb' 32 32 ≠ 0)
    ((∃ why, decode c = .error why) ↔ illegal) ∧
    (illegal → ∃ t out, step s = .next t ∧
      t.responses = s.responses ++ [⟨.error .invalidArgument, out⟩] ∧ out.length = 0 ∧
      t.requests = rest ∧ t.inProgress = false ∧ t.acc = s.acc)

/-! ### Steps and runs -/

/-- R51, R62, R22: a step of an idle block runs the instruction its next request's command word decodes to, on the
state in which the request has been accepted: its payload at `PIN`, the word's fields in `OP`, `W`, `B`, `M`. -/
def Obligations.StepRunsDecodedRequest : Prop :=
  ∀ (q : Request) (rest : List Request) (i : Instr) (s : State),
    s.inProgress = false → s.requests = q :: rest → decode q.cmd = .ok i →
    step s = exec i (s.accept q rest) ∧
    s.accept q rest = { s with
      requests := rest, inProgress := true, pin := q.pin, op := q.cmd.extractLsb' 0 2,
      w := q.cmd.extractLsb' 8 8, b := q.cmd.extractLsb' 16 8, m := q.cmd.extractLsb' 32 32 }

/-- R32: an idle block with no request gives no response. That the step leaves the state as it is is the model's
choice (log 9). -/
def Obligations.IdleBlockGivesNoResponse : Prop :=
  ∀ s : State, s.inProgress = false → s.requests = [] → step s = .next s

/-- R183 gives no meaning to a request presented while another is in progress; that a step then refuses is the
model's choice (log 4). -/
def Obligations.StepWhileInProgressIsRefused : Prop :=
  ∀ s : State, s.inProgress = true → step s = .refused .operationInProgress

/-- R32, R180: reset leaves the block idle, with no request accepted, no response pending and `ACC` zero. That reset
gives `State.reset` whole is the model's choice: zero in `OP`, `W`, `B`, `M`, `n`, `i`, `total_bits` and an empty
`PIN` (log 6, DESIGN CHOICE), and the host's requests to come and recorded responses dropped (log 3, DEDUCED). -/
def Obligations.ResetLeavesBlockIdle : Prop :=
  ∀ s : State, (applyReset s).inProgress = false ∧ (applyReset s).requests = [] ∧
    (applyReset s).responses = [] ∧ (applyReset s).acc.toNat = 0 ∧ applyReset s = State.reset

/-- The invariant holds at reset. -/
def Obligations.ResetSatisfiesInvariant : Prop := State.reset.Inv

/-- From every state that meets the invariant, a step gives a state that meets it. -/
def Obligations.StepKeepsInvariant : Prop :=
  ∀ s t : State, s.Inv → step s = .next t → t.Inv

/-- R13, R147: from every state that meets the invariant, a step answers a next state: every operation is total. -/
def Obligations.StepNeverStopsFromInvariant : Prop :=
  ∀ s : State, s.Inv → ∃ t, step s = .next t

/-- R20: the response to a request depends on that request alone. -/
def Obligations.ResponseDependsOnRequestAlone : Prop :=
  ∀ (q : Request) (rs ts : List Request) (s t : State), q.WellFormed →
    s.inProgress = false → s.requests = q :: rs → t.inProgress = false → t.requests = q :: ts →
    ∃ s' t' r, step s = .next s' ∧ step t = .next t' ∧
      s'.responses = s.responses ++ [r] ∧ t'.responses = t.responses ++ [r]

/-- R51: for requests `q0, q1, …` the responses are `f(q0), f(q1), …`, in that order. -/
def Obligations.ResponsesFollowRequestOrder : Prop :=
  ∀ (qs rest : List Request) (s : State), (∀ q ∈ qs, q.WellFormed) →
    s.inProgress = false → s.requests = qs ++ rest →
    ∃ (t : State) (rs : List Response), Host.Core.run core qs.length s = .next t ∧
      t.requests = rest ∧ t.inProgress = false ∧ t.responses = s.responses ++ rs ∧
      rs.map some = qs.map blockFunction

/-- R158: the next request is handled as if the one before it had never been presented, a failed one included, and
repeating a request gives the same response. That a failed request leaves `ACC` unchanged is the model's choice (log
7, DEDUCED), and no rule. -/
def Obligations.EarlierRequestLeavesNoTrace : Prop :=
  ∀ (q₁ q₂ : Request) (rest : List Request) (s : State), q₁.WellFormed → q₂.WellFormed →
    s.inProgress = false → s.requests = q₁ :: q₂ :: rest →
    ∃ s₁ s₂ u r₁ r₂, step s = .next s₁ ∧ s₁.responses = s.responses ++ [r₁] ∧
      step s₁ = .next s₂ ∧ s₂.responses = s.responses ++ [r₁, r₂] ∧
      step { s with requests := q₂ :: rest } = .next u ∧ u.responses = s.responses ++ [r₂] ∧
      (r₁.status ≠ .ok → s₁.acc = s.acc) ∧ (q₂ = q₁ → r₂ = r₁)

/-- R156: an operation that ends with an error gives an empty output payload and is over. That `ACC` and `i` are
unchanged is the model's choice (log 7, DEDUCED), and no rule. -/
def Obligations.ErrorGivesNoOutput : Prop :=
  ∀ (i : Instr) (s t : State) (e : ErrorKind) (out : OutPayload), exec i s = .next t →
    t.responses = s.responses ++ [⟨.error e, out⟩] →
    out.length = 0 ∧ t.acc = s.acc ∧ t.i = s.i ∧ t.inProgress = false

/-- R27: each operation takes a payload of one kind. That a payload of another kind is refused is the model's choice
(log 5). -/
def Obligations.WrongPayloadKindIsRefused : Prop :=
  ∀ s : State,
    (s.pin.kind ≠ .elements → ∀ binbits, exec (.dpack binbits) s = .refused .payloadKind) ∧
    (s.pin.kind ≠ .bytes → ∀ m binbits, exec (.dunpack m binbits) s = .refused .payloadKind) ∧
    (s.pin.kind ≠ .entries → ∀ b rbits, exec (.scompress b rbits) s = .refused .payloadKind) ∧
    (s.pin.kind ≠ .bytes → ∀ b rbits, exec (.sdecompress b rbits) s = .refused .payloadKind)

/-- R160: the status of the response is the first error in the table's order, `OK` if there is none. -/
def Obligations.StatusFollowsCheckOrder : Prop :=
  (∀ (q : Request) (rest : List Request) (s : State) (why : IllegalWord), s.inProgress = false →
    s.requests = q :: rest → decode q.cmd = .error why →
    ∃ t out, step s = .next t ∧ t.responses = s.responses ++ [⟨.error .invalidArgument, out⟩]) ∧
  (∀ (binbits : Nat) (regs : List RegElem) (s : State), s.pin = .elements regs →
    ∃ t out, exec (.dpack binbits) s = .next t ∧ t.responses = s.responses ++
      [⟨if binbits < 1 ∨ 64 < binbits then .error .invalidArgument
        else if 2 ^ 20 < regs.length * binbits then .error .capacityExceeded
        else if regs.any fun x => decide (x.toInt < 0 ∨ ((2 ^ binbits - 1 : Nat) : Int) < x.toInt) then .error .invalidArgument
        else .ok, out⟩]) ∧
  (∀ (m : Int) (binbits : Nat) (data : List Byte) (s : State), s.pin = .bytes data →
    ∃ t out, exec (.dunpack m binbits) s = .next t ∧ t.responses = s.responses ++
      [⟨if binbits < 1 ∨ 64 < binbits ∨ m < 0 then .error .invalidArgument
        else if ((2 ^ 20 : Nat) : Int) < m * binbits then .error .capacityExceeded
        else if (data.length : Int) < (m * binbits + 7) / 8 then .error .insufficientData
        else .ok, out⟩]) ∧
  (∀ (b rbits : Nat) (entries : List Entry) (s : State), s.pin = .entries entries →
    ∃ t out, exec (.scompress b rbits) s = .next t ∧ t.responses = s.responses ++
      [⟨if 64 < b ∨ 64 < rbits ∨ b + rbits = 0 then .error .invalidArgument
        else if 2 ^ 20 < entries.length * (b + rbits) then .error .capacityExceeded
        else .ok, out⟩]) ∧
  (∀ (b rbits : Nat) (data : List Byte) (s : State), s.pin = .bytes data →
    ∃ t out, exec (.sdecompress b rbits) s = .next t ∧ t.responses = s.responses ++
      [⟨if 64 < b ∨ 64 < rbits ∨ b + rbits = 0 then .error .invalidArgument
        else if 2 ^ 20 < 8 * data.length then .error .capacityExceeded
        else .ok, out⟩])

/-- R154: which errors each operation reports, and that each error marked "yes" there is reported on some request. -/
def Obligations.ErrorsEachOperationReports : Prop :=
  (∀ (i : Instr) (s t : State) (out : OutPayload), exec i s = .next t →
    t.responses = s.responses ++ [⟨.error .insufficientData, out⟩] → ∃ m binbits, i = .dunpack m binbits) ∧
  (∀ (i : Instr) (b rbits : Nat) (s t : State) (out : OutPayload), i = .scompress b rbits ∨ i = .sdecompress b rbits →
    exec i s = .next t → t.responses = s.responses ++ [⟨.error .invalidArgument, out⟩] →
    64 < b ∨ 64 < rbits ∨ b + rbits = 0) ∧
  (∀ p ∈ [("DPACK", ErrorKind.invalidArgument), ("DPACK", .capacityExceeded), ("DUNPACK", .invalidArgument),
      ("DUNPACK", .insufficientData), ("DUNPACK", .capacityExceeded), ("SCOMPRESS", .invalidArgument),
      ("SCOMPRESS", .capacityExceeded), ("SDECOMPRESS", .invalidArgument), ("SDECOMPRESS", .capacityExceeded)],
    ∃ i s t out, i.mnemonic = p.1 ∧ exec i s = .next t ∧ t.responses = s.responses ++ [⟨.error p.2, out⟩])

/-- R66: the status codes, which are distinct. -/
def Obligations.StatusCodesAreDistinct : Prop :=
  Status.code .ok = 0 ∧ Status.code (.error .invalidArgument) = 1 ∧ Status.code (.error .insufficientData) = 2 ∧
  Status.code (.error .capacityExceeded) = 3 ∧ ∀ a b : Status, a.code = b.code → a = b

/-! ### Frames -/

/-- R20, R22, R47: a dense operation gives exactly one response and leaves the requests to come, the payload and the
command word's fields as they were; on an error it leaves `ACC` and `i` too. It may change `ACC`, `n`, `i` and
`total_bits` only. That `ACC` and `i` are unchanged on an error is the model's choice (log 7, DEDUCED), and no rule. -/
def Obligations.DenseOperationFrame : Prop :=
  ∀ (i : Instr) (s t : State), (∃ binbits, i = .dpack binbits) ∨ (∃ m binbits, i = .dunpack m binbits) →
    exec i s = .next t →
    t.requests = s.requests ∧ t.pin = s.pin ∧ t.op = s.op ∧ t.w = s.w ∧ t.b = s.b ∧ t.m = s.m ∧
    t.inProgress = false ∧
    ∃ r, t.responses = s.responses ++ [r] ∧ (r.status ≠ .ok → t.acc = s.acc ∧ t.i = s.i)

/-- R20, R22, R47: the same of the sparse operations. That `ACC` and `i` are unchanged on an error is the model's
choice (log 7, DEDUCED), and no rule. -/
def Obligations.SparseOperationFrame : Prop :=
  ∀ (i : Instr) (s t : State), (∃ b rbits, i = .scompress b rbits) ∨ (∃ b rbits, i = .sdecompress b rbits) →
    exec i s = .next t →
    t.requests = s.requests ∧ t.pin = s.pin ∧ t.op = s.op ∧ t.w = s.w ∧ t.b = s.b ∧ t.m = s.m ∧
    t.inProgress = false ∧
    ∃ r, t.responses = s.responses ++ [r] ∧ (r.status ≠ .ok → t.acc = s.acc ∧ t.i = s.i)

/-! ### DPACK -/

/-- R111: a width out of `[1, 64]` is `InvalidArgument`, whatever the payload, the empty one included. That `ACC` is
unchanged is the model's choice (log 7, DEDUCED), and no rule. -/
def Obligations.DpackRejectsWidth : Prop :=
  ∀ (binbits : Nat) (regs : List RegElem) (s : State), s.pin = .elements regs → binbits < 1 ∨ 64 < binbits →
    ∃ t, exec (.dpack binbits) s = .next t ∧
      t.responses = s.responses ++ [⟨.error .invalidArgument, .bytes []⟩] ∧ t.acc = s.acc

/-- R114: above the ceiling the operation ends with `CapacityExceeded`, whatever the elements. That `ACC` is
unchanged is the model's choice (log 7, DEDUCED), and no rule. -/
def Obligations.DpackRejectsOverCeiling : Prop :=
  ∀ (binbits : Nat) (regs : List RegElem) (s : State), s.pin = .elements regs → 1 ≤ binbits → binbits ≤ 64 →
    2 ^ 20 < regs.length * binbits →
    ∃ t, exec (.dpack binbits) s = .next t ∧
      t.responses = s.responses ++ [⟨.error .capacityExceeded, .bytes []⟩] ∧ t.acc = s.acc

/-- R113: one element out of range anywhere aborts the whole call with no output. That `ACC` is unchanged is the
model's choice (log 7, DEDUCED), and no rule. -/
def Obligations.DpackRejectsElement : Prop :=
  ∀ (binbits : Nat) (regs : List RegElem) (x : RegElem) (s : State), s.pin = .elements regs →
    1 ≤ binbits → binbits ≤ 64 → regs.length * binbits ≤ 2 ^ 20 → x ∈ regs →
    x.toInt < 0 ∨ ((2 ^ binbits - 1 : Nat) : Int) < x.toInt →
    ∃ t, exec (.dpack binbits) s = .next t ∧
      t.responses = s.responses ++ [⟨.error .invalidArgument, .bytes []⟩] ∧ t.acc = s.acc

/-- R112: with a legal width, empty input gives `(OK, [])`. -/
def Obligations.DpackOfEmptyIsEmpty : Prop :=
  ∀ (binbits : Nat) (s : State), s.pin = .elements [] → 1 ≤ binbits → binbits ≤ 64 →
    ∃ t, exec (.dpack binbits) s = .next t ∧ t.responses = s.responses ++ [⟨.ok, .bytes []⟩]

/-- R115, R116, R46: legal registers are packed: `ceil(n * binbits / 8)` bytes whose value is the sum of
`registers[i] * 2^(i * binbits)`. What `ACC`, `n` and `total_bits` hold after the operation is the model's choice
(log 7, DEDUCED), and no rule: `ACC` the value of the output. -/
def Obligations.DpackPacksRegisters : Prop :=
  ∀ (binbits : Nat) (regs : List RegElem) (s : State), s.pin = .elements regs → 1 ≤ binbits → binbits ≤ 64 →
    regs.length * binbits ≤ 2 ^ 20 → (∀ x ∈ regs, ElementInRange binbits x) →
    ∃ (t : State) (D : List Byte), exec (.dpack binbits) s = .next t ∧
      t.responses = s.responses ++ [⟨.ok, .bytes D⟩] ∧ t.inProgress = false ∧
      D.length = (regs.length * binbits + 7) / 8 ∧
      val D = fieldSum binbits (regs.map fun x => x.toInt.toNat) ∧
      t.acc.toNat = val D ∧ t.n = regs.length ∧ t.totalBits = regs.length * binbits

/-- R48: the padding bits `DPACK` writes are zero. R48 is marked [derived] in the spec. -/
def Obligations.DpackPaddingIsZero : Prop :=
  ∀ (binbits : Nat) (regs : List RegElem) (D : List Byte) (s t : State), s.pin = .elements regs →
    exec (.dpack binbits) s = .next t → t.responses = s.responses ++ [⟨.ok, .bytes D⟩] →
    ∀ p, regs.length * binbits ≤ p → (val D).testBit p = false

/-- R70, R116: packing in two parts gives the single packing when the first part fills whole bytes. R188 says when
it does not; this is the other direction, inferred from the closed form of R116 (marked [derived] there) and the
offsets of R70. -/
def Obligations.DpackInPartsConcatenates : Prop :=
  ∀ (binbits : Nat) (xs ys : List RegElem) (s₁ s₂ s₃ : State),
    s₁.pin = .elements xs → s₂.pin = .elements ys → s₃.pin = .elements (xs ++ ys) →
    1 ≤ binbits → binbits ≤ 64 → (xs.length + ys.length) * binbits ≤ 2 ^ 20 →
    (∀ x ∈ xs ++ ys, ElementInRange binbits x) → 8 ∣ xs.length * binbits →
    ∃ t₁ t₂ t₃ D₁ D₂,
      exec (.dpack binbits) s₁ = .next t₁ ∧ t₁.responses = s₁.responses ++ [⟨.ok, .bytes D₁⟩] ∧
      exec (.dpack binbits) s₂ = .next t₂ ∧ t₂.responses = s₂.responses ++ [⟨.ok, .bytes D₂⟩] ∧
      exec (.dpack binbits) s₃ = .next t₃ ∧ t₃.responses = s₃.responses ++ [⟨.ok, .bytes (D₁ ++ D₂)⟩]

/-! ### DUNPACK -/

/-- R118: a width out of `[1, 64]` or a negative `m` is `InvalidArgument`, whatever `data` is. That `ACC` is
unchanged is the model's choice (log 7, DEDUCED), and no rule. -/
def Obligations.DunpackRejectsArguments : Prop :=
  ∀ (m : Int) (binbits : Nat) (data : List Byte) (s : State), s.pin = .bytes data →
    binbits < 1 ∨ 64 < binbits ∨ m < 0 →
    ∃ t, exec (.dunpack m binbits) s = .next t ∧
      t.responses = s.responses ++ [⟨.error .invalidArgument, .values []⟩] ∧ t.acc = s.acc

/-- R119: above the ceiling the operation ends with `CapacityExceeded`, whatever the length of `data`. That `ACC` is
unchanged is the model's choice (log 7, DEDUCED), and no rule. -/
def Obligations.DunpackRejectsOverCeiling : Prop :=
  ∀ (m : Int) (binbits : Nat) (data : List Byte) (s : State), s.pin = .bytes data →
    1 ≤ binbits → binbits ≤ 64 → 0 ≤ m → ((2 ^ 20 : Nat) : Int) < m * binbits →
    ∃ t, exec (.dunpack m binbits) s = .next t ∧
      t.responses = s.responses ++ [⟨.error .capacityExceeded, .values []⟩] ∧ t.acc = s.acc

/-- R120: data shorter than `ceil(m * binbits / 8)` is `InsufficientData`; data of that length or longer is `OK`.
That `ACC` is unchanged on an error is the model's choice (log 7, DEDUCED), and no rule. -/
def Obligations.DunpackRejectsShortData : Prop :=
  ∀ (m : Int) (binbits : Nat) (data : List Byte) (s : State), s.pin = .bytes data →
    1 ≤ binbits → binbits ≤ 64 → 0 ≤ m → m * binbits ≤ ((2 ^ 20 : Nat) : Int) →
    ((data.length : Int) < (m * binbits + 7) / 8 →
      ∃ t, exec (.dunpack m binbits) s = .next t ∧
        t.responses = s.responses ++ [⟨.error .insufficientData, .values []⟩] ∧ t.acc = s.acc) ∧
    ((m * binbits + 7) / 8 ≤ (data.length : Int) →
      ∃ t out, exec (.dunpack m binbits) s = .next t ∧ t.responses = s.responses ++ [⟨.ok, out⟩])

/-- R121, R68: enough data is unpacked into `m` values, value `i` being `binbits` bits at offset `i * binbits`. What
`ACC`, `n` and `total_bits` hold after the operation is the model's choice (log 7, DEDUCED), and no rule: `ACC` the
value of the first `ceil(m * binbits / 8)` bytes. -/
def Obligations.DunpackExtractsFields : Prop :=
  ∀ (count binbits : Nat) (data : List Byte) (s : State), s.pin = .bytes data → 1 ≤ binbits → binbits ≤ 64 →
    count * binbits ≤ 2 ^ 20 → (count * binbits + 7) / 8 ≤ data.length →
    ∃ (t : State) (vs : List RegValue), exec (.dunpack count binbits) s = .next t ∧
      t.responses = s.responses ++ [⟨.ok, .values vs⟩] ∧ t.inProgress = false ∧ vs.length = count ∧
      (vs.map fun v => v.toNat) = (List.range count).map (fun i => (val data >>> (i * binbits)) % 2 ^ binbits) ∧
      t.acc.toNat = val (data.take ((count * binbits + 7) / 8)) ∧
      t.n = count ∧ t.totalBits = count * binbits

/-- R49, R122: `DUNPACK` ignores every bit of `data` at offset `m * binbits` and above. The bullets of R122 are
marked [derived] in the spec. -/
def Obligations.DunpackIgnoresPadding : Prop :=
  ∀ (count binbits : Nat) (data data' : List Byte) (s s' : State), s.pin = .bytes data → s'.pin = .bytes data' →
    1 ≤ binbits → binbits ≤ 64 → count * binbits ≤ 2 ^ 20 →
    (count * binbits + 7) / 8 ≤ data.length → (count * binbits + 7) / 8 ≤ data'.length →
    val data % 2 ^ (count * binbits) = val data' % 2 ^ (count * binbits) →
    ∃ t t' vs, exec (.dunpack count binbits) s = .next t ∧ exec (.dunpack count binbits) s' = .next t' ∧
      t.responses = s.responses ++ [⟨.ok, .values vs⟩] ∧ t'.responses = s'.responses ++ [⟨.ok, .values vs⟩]

/-- R123: unpacking what was packed gives the registers back; packing what was unpacked gives the needed bytes with
the padding bits cleared. The second part is the converse, which R123 marks [derived]. -/
def Obligations.DenseRoundTrip : Prop :=
  (∀ (binbits : Nat) (regs : List RegElem) (s : State), s.pin = .elements regs → 1 ≤ binbits → binbits ≤ 64 →
    regs.length * binbits ≤ 2 ^ 20 → (∀ x ∈ regs, ElementInRange binbits x) →
    ∃ (t : State) (D : List Byte), exec (.dpack binbits) s = .next t ∧
      t.responses = s.responses ++ [⟨.ok, .bytes D⟩] ∧
      ∀ s' : State, s'.pin = .bytes D →
        ∃ (t' : State) (vs : List RegValue), exec (.dunpack regs.length binbits) s' = .next t' ∧
          t'.responses = s'.responses ++ [⟨.ok, .values vs⟩] ∧
          (vs.map fun v => (v.toNat : Int)) = regs.map fun x => x.toInt) ∧
  (∀ (count binbits : Nat) (data : List Byte) (s : State), s.pin = .bytes data → 1 ≤ binbits → binbits ≤ 64 →
    count * binbits ≤ 2 ^ 20 → (count * binbits + 7) / 8 ≤ data.length →
    ∃ (t : State) (vs : List RegValue), exec (.dunpack count binbits) s = .next t ∧
      t.responses = s.responses ++ [⟨.ok, .values vs⟩] ∧
      ∀ s' : State, s'.pin = .elements (vs.map fun v => v.setWidth 65) →
        ∃ (t' : State) (D : List Byte), exec (.dpack binbits) s' = .next t' ∧
          t'.responses = s'.responses ++ [⟨.ok, .bytes D⟩] ∧
          D.length = (count * binbits + 7) / 8 ∧ val D = val data % 2 ^ (count * binbits))

/-! ### SCOMPRESS and SDECOMPRESS -/

/-- R133: the width checks of both sparse operations, and that widths within the bounds, one of them zero included,
are not an `InvalidArgument`. That `ACC` is unchanged on an error is the model's choice (log 7, DEDUCED), and no
rule. -/
def Obligations.SparseWidthsAreChecked : Prop :=
  ∀ (b rbits : Nat) (entries : List Entry) (data : List Byte) (s s' : State),
    s.pin = .entries entries → s'.pin = .bytes data →
    (64 < b ∨ 64 < rbits ∨ b + rbits = 0 →
      ∃ t t', exec (.scompress b rbits) s = .next t ∧ exec (.sdecompress b rbits) s' = .next t' ∧
        t.responses = s.responses ++ [⟨.error .invalidArgument, .bytes []⟩] ∧ t.acc = s.acc ∧
        t'.responses = s'.responses ++ [⟨.error .invalidArgument, .entries []⟩] ∧ t'.acc = s'.acc) ∧
    (b ≤ 64 → rbits ≤ 64 → 1 ≤ b + rbits →
      ∃ t t' r r', exec (.scompress b rbits) s = .next t ∧ exec (.sdecompress b rbits) s' = .next t' ∧
        t.responses = s.responses ++ [r] ∧ r.status ≠ .error .invalidArgument ∧
        t'.responses = s'.responses ++ [r'] ∧ r'.status ≠ .error .invalidArgument)

/-- R134: above the ceiling `SCOMPRESS` ends with `CapacityExceeded`. That `ACC` is unchanged is the model's choice
(log 7, DEDUCED), and no rule. -/
def Obligations.ScompressRejectsOverCeiling : Prop :=
  ∀ (b rbits : Nat) (entries : List Entry) (s : State), s.pin = .entries entries →
    b ≤ 64 → rbits ≤ 64 → 1 ≤ b + rbits → 2 ^ 20 < entries.length * (b + rbits) →
    ∃ t, exec (.scompress b rbits) s = .next t ∧
      t.responses = s.responses ++ [⟨.error .capacityExceeded, .bytes []⟩] ∧ t.acc = s.acc

/-- R135, R136: whatever the entries' values, the output is `ceil(n * entrybits / 8)` bytes whose value is the OR of
the shifted composite fields, modulo `2^(8 * nbytes)`. What `ACC`, `n` and `total_bits` hold after the operation is
the model's choice (log 7, DEDUCED), and no rule: `ACC` the OR modulo `2^ACC_BITS`. -/
def Obligations.ScompressPacksEntries : Prop :=
  ∀ (b rbits : Nat) (entries : List Entry) (s : State), s.pin = .entries entries →
    b ≤ 64 → rbits ≤ 64 → 1 ≤ b + rbits → entries.length * (b + rbits) ≤ 2 ^ 20 →
    let fields := entries.map fun e => (e.index.toNat <<< rbits) ||| (e.rho.toNat % 2 ^ rbits)
    ∃ (t : State) (D : List Byte), exec (.scompress b rbits) s = .next t ∧
      t.responses = s.responses ++ [⟨.ok, .bytes D⟩] ∧ t.inProgress = false ∧
      D.length = (entries.length * (b + rbits) + 7) / 8 ∧
      val D = fieldOr (b + rbits) fields % 2 ^ (8 * D.length) ∧
      t.acc.toNat = fieldOr (b + rbits) fields % 2 ^ Config.accBits ∧
      t.n = entries.length ∧ t.totalBits = entries.length * (b + rbits)

/-- R137: only `rho mod 2^rbits` is encoded: an out-of-range `rho` gives the same response as its residue. -/
def Obligations.ScompressTruncatesRho : Prop :=
  ∀ (b rbits : Nat) (entries : List Entry) (s s' : State), s.pin = .entries entries →
    s'.pin = .entries (entries.map fun e => ⟨e.index, BitVec.ofNat 64 (e.rho.toNat % 2 ^ rbits)⟩) →
    ∃ t t' r, exec (.scompress b rbits) s = .next t ∧ exec (.scompress b rbits) s' = .next t' ∧
      t.responses = s.responses ++ [r] ∧ t'.responses = s'.responses ++ [r]

/-- R48: the padding bits `SCOMPRESS` writes are zero when every `index` is below `2^b`. R48 is marked [derived] in
the spec. -/
def Obligations.ScompressPaddingIsZeroInRange : Prop :=
  ∀ (b rbits : Nat) (entries : List Entry) (D : List Byte) (s t : State), s.pin = .entries entries →
    (∀ e ∈ entries, e.index.toNat < 2 ^ b) → exec (.scompress b rbits) s = .next t →
    t.responses = s.responses ++ [⟨.ok, .bytes D⟩] →
    ∀ p, entries.length * (b + rbits) ≤ p → (val D).testBit p = false

/-- R141: above the ceiling `SDECOMPRESS` ends with `CapacityExceeded`; at or below it any length, zero included, is
`OK`. That `ACC` is unchanged on an error is the model's choice (log 7, DEDUCED), and no rule. -/
def Obligations.SdecompressRejectsOverCeiling : Prop :=
  ∀ (b rbits : Nat) (data : List Byte) (s : State), s.pin = .bytes data →
    b ≤ 64 → rbits ≤ 64 → 1 ≤ b + rbits →
    (2 ^ 20 < 8 * data.length →
      ∃ t, exec (.sdecompress b rbits) s = .next t ∧
        t.responses = s.responses ++ [⟨.error .capacityExceeded, .entries []⟩] ∧ t.acc = s.acc) ∧
    (8 * data.length ≤ 2 ^ 20 →
      ∃ t out, exec (.sdecompress b rbits) s = .next t ∧ t.responses = s.responses ++ [⟨.ok, out⟩])

/-- R140, R142, R69: `(8 * len) // entrybits` entries, entry `i` being `rho` in the low `rbits` and `index` in the
next `b` bits at offset `i * entrybits`. What `ACC`, `n` and `total_bits` hold after the operation is the model's
choice (log 7, DEDUCED), and no rule: `ACC` the value of the data. -/
def Obligations.SdecompressSplitsFields : Prop :=
  ∀ (b rbits : Nat) (data : List Byte) (s : State), s.pin = .bytes data →
    b ≤ 64 → rbits ≤ 64 → 1 ≤ b + rbits → 8 * data.length ≤ 2 ^ 20 →
    ∃ (t : State) (es : List Entry), exec (.sdecompress b rbits) s = .next t ∧
      t.responses = s.responses ++ [⟨.ok, .entries es⟩] ∧ t.inProgress = false ∧
      es.length = data.length * 8 / (b + rbits) ∧
      (es.map fun e => (e.index.toNat, e.rho.toNat)) =
        (List.range (data.length * 8 / (b + rbits))).map (fun i =>
          ((val data >>> (i * (b + rbits) + rbits)) % 2 ^ b, (val data >>> (i * (b + rbits))) % 2 ^ rbits)) ∧
      t.acc.toNat = val data ∧ t.n = data.length * 8 / (b + rbits) ∧ t.totalBits = 8 * data.length

/-- R140, R144: the bits left over above the last whole slot are ignored whatever their value. -/
def Obligations.SdecompressIgnoresLeftoverBits : Prop :=
  ∀ (b rbits : Nat) (data data' : List Byte) (s s' : State), s.pin = .bytes data → s'.pin = .bytes data' →
    b ≤ 64 → rbits ≤ 64 → 1 ≤ b + rbits → 8 * data.length ≤ 2 ^ 20 → data'.length = data.length →
    (let used := data.length * 8 / (b + rbits) * (b + rbits)
     val data % 2 ^ used = val data' % 2 ^ used) →
    ∃ t t' es, exec (.sdecompress b rbits) s = .next t ∧ exec (.sdecompress b rbits) s' = .next t' ∧
      t.responses = s.responses ++ [⟨.ok, .entries es⟩] ∧ t'.responses = s'.responses ++ [⟨.ok, .entries es⟩]

/-- R131: disassembly of the composite field of an in-range entry gives the entry back. The inverse property is
marked [derived] in the spec. -/
def Obligations.CompositeFieldSplitsBack : Prop :=
  ∀ (b rbits : Nat) (e : Entry), EntryInRange b rbits e →
    sparseField rbits e < 2 ^ (b + rbits) ∧ sparseEntry rbits (sparseField rbits e) = e

/-- R143: the number of entries `SDECOMPRESS` counts after `n` were packed, and when none is spurious. The formula
is marked [derived] in the spec. -/
def Obligations.SpuriousEntryCount : Prop :=
  ∀ n ebits : Nat, 1 ≤ ebits →
    let p := 8 * bytesFor (n * ebits) - n * ebits
    entryCount (bytesFor (n * ebits)) ebits = n + p / ebits ∧ p ≤ 7 ∧
    (8 ≤ ebits ∨ p < ebits → entryCount (bytesFor (n * ebits)) ebits = n)

/-- R145, R143: in-range entries come back, followed by `n' - n` spurious entries `(0, 0)`. The case of spurious
entries is marked [derived] in R145. -/
def Obligations.SparseRoundTrip : Prop :=
  ∀ (b rbits : Nat) (entries : List Entry) (s : State), s.pin = .entries entries →
    b ≤ 64 → rbits ≤ 64 → 1 ≤ b + rbits → entries.length * (b + rbits) ≤ 2 ^ 20 →
    (∀ e ∈ entries, EntryInRange b rbits e) →
    ∃ (t : State) (D : List Byte), exec (.scompress b rbits) s = .next t ∧
      t.responses = s.responses ++ [⟨.ok, .bytes D⟩] ∧
      ∀ s' : State, s'.pin = .bytes D →
        ∃ t' : State, exec (.sdecompress b rbits) s' = .next t' ∧
          t'.responses = s'.responses ++
            [⟨.ok, .entries (entries ++
              List.replicate (8 * D.length / (b + rbits) - entries.length) ⟨0, 0⟩)⟩]

/-- R65: an entry's item has `index` in bits 127:64 and `rho` in bits 63:0, and nothing else. -/
def Obligations.EntryItemLayout : Prop :=
  (∀ e : Entry, e.toItem.toNat = e.index.toNat * 2 ^ 64 + e.rho.toNat ∧ Entry.ofItem e.toItem = e) ∧
  (∀ x : EntryItem, (Entry.ofItem x).toItem = x)

/-! ### The accumulator primitives -/

/-- R92, R93: `PLACE` ORs the shifted field into `ACC`, drops bits at `2^20` and above, and changes nothing else. -/
def Obligations.PlaceOrsShiftedField : Prop :=
  ∀ (v o : Nat) (s : State),
    (place v o s).acc.toNat = (s.acc.toNat ||| v * 2 ^ o) % 2 ^ Config.accBits ∧
    (∀ k, (place v o s).acc.getLsbD k =
      (s.acc.getLsbD k || (decide (k < 2 ^ 20) && (decide (o ≤ k) && v.testBit (k - o))))) ∧
    place v o s = { s with acc := (place v o s).acc }

/-- R95: on a cleared `ACC`, `LOAD(nbytes)` gives the value of the first `nbytes` bytes, and changes nothing else. -/
def Obligations.LoadReadsValue : Prop :=
  ∀ (nbytes : Nat) (din : List Byte) (s : State), nbytes ≤ din.length → nbytes ≤ 2 ^ 17 →
    (load nbytes din (clear s)).acc.toNat = val (din.take nbytes) ∧
    load nbytes din (clear s) = { s with acc := (load nbytes din (clear s)).acc }

/-- R101: the value of `ACC` after a set of `PLACE`s does not depend on their order. R101 is marked [derived] in the
spec. -/
def Obligations.PlacementOrderDoesNotMatter : Prop :=
  ∀ (ps ps' : List (Nat × Nat)) (s : State), ps.Perm ps' →
    (ps.foldl (fun s p => place p.1 p.2 s) s).acc = (ps'.foldl (fun s p => place p.1 p.2 s) s).acc

/-- R100: fields below `2^w` placed at `0, w, 2w, …` within `ACC` are summed. R100 is marked [derived] in the spec. -/
def Obligations.DisjointFieldsAreSummed : Prop :=
  ∀ (width : Nat) (fields : List Nat) (s : State), (∀ f ∈ fields, f < 2 ^ width) →
    fields.length * width ≤ 2 ^ 20 →
    (placeFields width fields 0 (clear s)).acc.toNat = fieldSum width fields ∧
    fieldOr width fields = fieldSum width fields

/-- R102: fields placed are extracted again, and above them `EXTRACT` gives 0. R102 is marked [derived] in the spec. -/
def Obligations.PlaceThenExtract : Prop :=
  ∀ (width : Nat) (fields : List Nat) (s : State), (∀ f ∈ fields, f < 2 ^ width) →
    fields.length * width ≤ 2 ^ 20 →
    let t := placeFields width fields 0 (clear s)
    (∀ i f, fields[i]? = some f → extract (i * width) width t = f) ∧
    (∀ o w, fields.length * width ≤ o → extract o w t = 0)

/-- R103: the bytes of `SLICE(nbytes)` have the value `ACC mod 2^(8 * nbytes)`, and loading bytes and slicing them
gives them back. R103 is marked [derived] in the spec. -/
def Obligations.SliceThenLoad : Prop :=
  (∀ (nbytes : Nat) (s : State), val (slice nbytes s) = s.acc.toNat % 2 ^ (8 * nbytes)) ∧
  (∀ (D : List Byte) (s : State), D.length ≤ 2 ^ 17 → slice D.length (load D.length D (clear s)) = D)

/-- R104: the byte-buffer forms of `PLACE` and `EXTRACT` give the results of R92 and R96. R104's formulas are marked
[derived] in the spec. -/
def Obligations.ByteBufferFormAgrees : Prop :=
  (∀ (v o w : Nat) (D : List Byte) (s : State), 1 ≤ w → v < 2 ^ w → o + w ≤ 8 * D.length → D.length ≤ 2 ^ 17 →
    s.acc.toNat = val D →
    (bufferPlace v o w D).length = D.length ∧ val (bufferPlace v o w D) = (place v o s).acc.toNat) ∧
  (∀ (o w : Nat) (D : List Byte) (s : State), 1 ≤ w → o + w ≤ 8 * D.length → s.acc.toNat = val D →
    bufferExtract o w D = extract o w s)
end

