-- ==== Sys2Proof/Laws/Decode.lean ====
section
/-! SUPPORT. The assembled command word as a number, and its fields (R61). -/

namespace Sys2Proof

theorem append_toNat {v w : Nat} (x : BitVec v) (y : BitVec w) :
    (x ++ y).toNat = x.toNat * 2 ^ w + y.toNat := by
  rw [BitVec.toNat_append, ← Nat.shiftLeft_add_eq_or_of_lt y.isLt, Nat.shiftLeft_eq]

namespace CommandWord

/-- The word as a number: each field at the weight of its lowest bit (R61). -/
theorem assemble_toNat (m : BitVec 32) (b w : BitVec 8) (o : BitVec 2) :
    (assemble m b w o).toNat = m.toNat * 2 ^ 32 + b.toNat * 2 ^ 16 + w.toNat * 2 ^ 8 + o.toNat := by
  simp only [assemble, append_toNat, BitVec.toNat_ofNat]
  omega

@[simp] theorem op_assemble (m : BitVec 32) (b w : BitVec 8) (o : BitVec 2) : op (assemble m b w o) = o := by
  apply BitVec.eq_of_toNat_eq
  simp only [op, BitVec.extractLsb'_toNat, assemble_toNat, Nat.shiftRight_eq_div_pow]
  omega

@[simp] theorem rsv0_assemble (m : BitVec 32) (b w : BitVec 8) (o : BitVec 2) : rsv0 (assemble m b w o) = 0#6 := by
  apply BitVec.eq_of_toNat_eq
  simp only [rsv0, BitVec.extractLsb'_toNat, assemble_toNat, Nat.shiftRight_eq_div_pow, BitVec.toNat_ofNat]
  omega

@[simp] theorem w_assemble (m : BitVec 32) (b w : BitVec 8) (o : BitVec 2) :
    CommandWord.w (assemble m b w o) = w := by
  apply BitVec.eq_of_toNat_eq
  simp only [CommandWord.w, BitVec.extractLsb'_toNat, assemble_toNat, Nat.shiftRight_eq_div_pow]
  omega

@[simp] theorem b_assemble (m : BitVec 32) (b w : BitVec 8) (o : BitVec 2) :
    CommandWord.b (assemble m b w o) = b := by
  apply BitVec.eq_of_toNat_eq
  simp only [CommandWord.b, BitVec.extractLsb'_toNat, assemble_toNat, Nat.shiftRight_eq_div_pow]
  omega

@[simp] theorem rsv1_assemble (m : BitVec 32) (b w : BitVec 8) (o : BitVec 2) : rsv1 (assemble m b w o) = 0#8 := by
  apply BitVec.eq_of_toNat_eq
  simp only [rsv1, BitVec.extractLsb'_toNat, assemble_toNat, Nat.shiftRight_eq_div_pow, BitVec.toNat_ofNat]
  omega

@[simp] theorem m_assemble (m : BitVec 32) (b w : BitVec 8) (o : BitVec 2) :
    CommandWord.m (assemble m b w o) = m := by
  apply BitVec.eq_of_toNat_eq
  simp only [CommandWord.m, BitVec.extractLsb'_toNat, assemble_toNat, Nat.shiftRight_eq_div_pow]
  omega

end CommandWord

end Sys2Proof
end

