-- ==== Sys2Proof/Laws/State.lean ====
section
/-! SUPPORT. One lemma per field per update of State, each true by rfl, so that no proof unfolds a record update. -/

namespace Sys2Proof.Machine

/-! ### `State.setN` -/

@[simp] theorem setN_requests (n : Nat) (s : State) : (s.setN n).requests = s.requests := rfl

@[simp] theorem setN_responses (n : Nat) (s : State) : (s.setN n).responses = s.responses := rfl

@[simp] theorem setN_inProgress (n : Nat) (s : State) : (s.setN n).inProgress = s.inProgress := rfl

@[simp] theorem setN_pin (n : Nat) (s : State) : (s.setN n).pin = s.pin := rfl

@[simp] theorem setN_op (n : Nat) (s : State) : (s.setN n).op = s.op := rfl

@[simp] theorem setN_w (n : Nat) (s : State) : (s.setN n).w = s.w := rfl

@[simp] theorem setN_b (n : Nat) (s : State) : (s.setN n).b = s.b := rfl

@[simp] theorem setN_m (n : Nat) (s : State) : (s.setN n).m = s.m := rfl

@[simp] theorem setN_n (n : Nat) (s : State) : (s.setN n).n = n := rfl

@[simp] theorem setN_i (n : Nat) (s : State) : (s.setN n).i = s.i := rfl

@[simp] theorem setN_totalBits (n : Nat) (s : State) : (s.setN n).totalBits = s.totalBits := rfl

@[simp] theorem setN_acc (n : Nat) (s : State) : (s.setN n).acc = s.acc := rfl

/-! ### `State.setTotalBits` -/

@[simp] theorem setTotalBits_requests (t : Nat) (s : State) : (s.setTotalBits t).requests = s.requests := rfl

@[simp] theorem setTotalBits_responses (t : Nat) (s : State) : (s.setTotalBits t).responses = s.responses := rfl

@[simp] theorem setTotalBits_inProgress (t : Nat) (s : State) : (s.setTotalBits t).inProgress = s.inProgress := rfl

@[simp] theorem setTotalBits_pin (t : Nat) (s : State) : (s.setTotalBits t).pin = s.pin := rfl

@[simp] theorem setTotalBits_op (t : Nat) (s : State) : (s.setTotalBits t).op = s.op := rfl

@[simp] theorem setTotalBits_w (t : Nat) (s : State) : (s.setTotalBits t).w = s.w := rfl

@[simp] theorem setTotalBits_b (t : Nat) (s : State) : (s.setTotalBits t).b = s.b := rfl

@[simp] theorem setTotalBits_m (t : Nat) (s : State) : (s.setTotalBits t).m = s.m := rfl

@[simp] theorem setTotalBits_n (t : Nat) (s : State) : (s.setTotalBits t).n = s.n := rfl

@[simp] theorem setTotalBits_i (t : Nat) (s : State) : (s.setTotalBits t).i = s.i := rfl

@[simp] theorem setTotalBits_totalBits (t : Nat) (s : State) : (s.setTotalBits t).totalBits = t := rfl

@[simp] theorem setTotalBits_acc (t : Nat) (s : State) : (s.setTotalBits t).acc = s.acc := rfl

/-! ### `State.setI` -/

@[simp] theorem setI_requests (i : Nat) (s : State) : (s.setI i).requests = s.requests := rfl

@[simp] theorem setI_responses (i : Nat) (s : State) : (s.setI i).responses = s.responses := rfl

@[simp] theorem setI_inProgress (i : Nat) (s : State) : (s.setI i).inProgress = s.inProgress := rfl

@[simp] theorem setI_pin (i : Nat) (s : State) : (s.setI i).pin = s.pin := rfl

@[simp] theorem setI_op (i : Nat) (s : State) : (s.setI i).op = s.op := rfl

@[simp] theorem setI_w (i : Nat) (s : State) : (s.setI i).w = s.w := rfl

@[simp] theorem setI_b (i : Nat) (s : State) : (s.setI i).b = s.b := rfl

@[simp] theorem setI_m (i : Nat) (s : State) : (s.setI i).m = s.m := rfl

@[simp] theorem setI_n (i : Nat) (s : State) : (s.setI i).n = s.n := rfl

@[simp] theorem setI_i (i : Nat) (s : State) : (s.setI i).i = i := rfl

@[simp] theorem setI_totalBits (i : Nat) (s : State) : (s.setI i).totalBits = s.totalBits := rfl

@[simp] theorem setI_acc (i : Nat) (s : State) : (s.setI i).acc = s.acc := rfl

/-! ### `State.setAcc` -/

@[simp] theorem setAcc_requests (v : BitVec Config.accBits) (s : State) : (s.setAcc v).requests = s.requests := rfl

@[simp] theorem setAcc_responses (v : BitVec Config.accBits) (s : State) : (s.setAcc v).responses = s.responses := rfl

@[simp] theorem setAcc_inProgress (v : BitVec Config.accBits) (s : State) : (s.setAcc v).inProgress = s.inProgress := rfl

@[simp] theorem setAcc_pin (v : BitVec Config.accBits) (s : State) : (s.setAcc v).pin = s.pin := rfl

@[simp] theorem setAcc_op (v : BitVec Config.accBits) (s : State) : (s.setAcc v).op = s.op := rfl

@[simp] theorem setAcc_w (v : BitVec Config.accBits) (s : State) : (s.setAcc v).w = s.w := rfl

@[simp] theorem setAcc_b (v : BitVec Config.accBits) (s : State) : (s.setAcc v).b = s.b := rfl

@[simp] theorem setAcc_m (v : BitVec Config.accBits) (s : State) : (s.setAcc v).m = s.m := rfl

@[simp] theorem setAcc_n (v : BitVec Config.accBits) (s : State) : (s.setAcc v).n = s.n := rfl

@[simp] theorem setAcc_i (v : BitVec Config.accBits) (s : State) : (s.setAcc v).i = s.i := rfl

@[simp] theorem setAcc_totalBits (v : BitVec Config.accBits) (s : State) : (s.setAcc v).totalBits = s.totalBits := rfl

@[simp] theorem setAcc_acc (v : BitVec Config.accBits) (s : State) : (s.setAcc v).acc = v := rfl

/-! ### `State.accept` -/

@[simp] theorem accept_requests (q : Request) (rest : List Request) (s : State) : (s.accept q rest).requests = rest := rfl

@[simp] theorem accept_responses (q : Request) (rest : List Request) (s : State) : (s.accept q rest).responses = s.responses := rfl

@[simp] theorem accept_inProgress (q : Request) (rest : List Request) (s : State) : (s.accept q rest).inProgress = true := rfl

@[simp] theorem accept_pin (q : Request) (rest : List Request) (s : State) : (s.accept q rest).pin = q.pin := rfl

@[simp] theorem accept_op (q : Request) (rest : List Request) (s : State) : (s.accept q rest).op = CommandWord.op q.cmd := rfl

@[simp] theorem accept_w (q : Request) (rest : List Request) (s : State) : (s.accept q rest).w = CommandWord.w q.cmd := rfl

@[simp] theorem accept_b (q : Request) (rest : List Request) (s : State) : (s.accept q rest).b = CommandWord.b q.cmd := rfl

@[simp] theorem accept_m (q : Request) (rest : List Request) (s : State) : (s.accept q rest).m = CommandWord.m q.cmd := rfl

@[simp] theorem accept_n (q : Request) (rest : List Request) (s : State) : (s.accept q rest).n = s.n := rfl

@[simp] theorem accept_i (q : Request) (rest : List Request) (s : State) : (s.accept q rest).i = s.i := rfl

@[simp] theorem accept_totalBits (q : Request) (rest : List Request) (s : State) : (s.accept q rest).totalBits = s.totalBits := rfl

@[simp] theorem accept_acc (q : Request) (rest : List Request) (s : State) : (s.accept q rest).acc = s.acc := rfl

/-! ### `State.respond` -/

@[simp] theorem respond_requests (r : Response) (s : State) : (s.respond r).requests = s.requests := rfl

@[simp] theorem respond_responses (r : Response) (s : State) : (s.respond r).responses = s.responses ++ [r] := rfl

@[simp] theorem respond_inProgress (r : Response) (s : State) : (s.respond r).inProgress = false := rfl

@[simp] theorem respond_pin (r : Response) (s : State) : (s.respond r).pin = s.pin := rfl

@[simp] theorem respond_op (r : Response) (s : State) : (s.respond r).op = s.op := rfl

@[simp] theorem respond_w (r : Response) (s : State) : (s.respond r).w = s.w := rfl

@[simp] theorem respond_b (r : Response) (s : State) : (s.respond r).b = s.b := rfl

@[simp] theorem respond_m (r : Response) (s : State) : (s.respond r).m = s.m := rfl

@[simp] theorem respond_n (r : Response) (s : State) : (s.respond r).n = s.n := rfl

@[simp] theorem respond_i (r : Response) (s : State) : (s.respond r).i = s.i := rfl

@[simp] theorem respond_totalBits (r : Response) (s : State) : (s.respond r).totalBits = s.totalBits := rfl

@[simp] theorem respond_acc (r : Response) (s : State) : (s.respond r).acc = s.acc := rfl

/-! ### `State.present` -/

@[simp] theorem present_requests (q : Request) (s : State) : (s.present q).requests = s.requests ++ [q] := rfl

@[simp] theorem present_responses (q : Request) (s : State) : (s.present q).responses = s.responses := rfl

@[simp] theorem present_inProgress (q : Request) (s : State) : (s.present q).inProgress = s.inProgress := rfl

@[simp] theorem present_pin (q : Request) (s : State) : (s.present q).pin = s.pin := rfl

@[simp] theorem present_op (q : Request) (s : State) : (s.present q).op = s.op := rfl

@[simp] theorem present_w (q : Request) (s : State) : (s.present q).w = s.w := rfl

@[simp] theorem present_b (q : Request) (s : State) : (s.present q).b = s.b := rfl

@[simp] theorem present_m (q : Request) (s : State) : (s.present q).m = s.m := rfl

@[simp] theorem present_n (q : Request) (s : State) : (s.present q).n = s.n := rfl

@[simp] theorem present_i (q : Request) (s : State) : (s.present q).i = s.i := rfl

@[simp] theorem present_totalBits (q : Request) (s : State) : (s.present q).totalBits = s.totalBits := rfl

@[simp] theorem present_acc (q : Request) (s : State) : (s.present q).acc = s.acc := rfl

/-! ### Results and errors are responses -/

@[simp] theorem finish_eq (out : OutPayload) (s : State) : s.finish out = s.respond ⟨.ok, out⟩ := rfl

@[simp] theorem raise_eq (k : OutKind) (e : ErrorKind) (s : State) : s.raise k e = s.respond ⟨.error e, .empty k⟩ := rfl

@[simp] theorem empty_length (k : OutKind) : (OutPayload.empty k).length = 0 := by cases k <;> rfl

@[simp] theorem empty_kind (k : InKind) : (InPayload.empty k).kind = k := by cases k <;> rfl

end Sys2Proof.Machine
end

