-- ==== Sys2Proof/Laws/Ops.lean ====
section
/-! SUPPORT. What each shared operation can do, said once: the accumulator primitives and the field loops change `ACC`
and `i` only, sequences have the lengths the rules give, and the checks are the conditions of the rules. -/

namespace Sys2Proof.Machine

/-! ### Numbers -/

theorem mask_lt (w : Nat) : mask w < 2 ^ w := by
  unfold mask; have := Nat.two_pow_pos w; omega

@[simp] theorem and_mask (x w : Nat) : x &&& mask w = x % 2 ^ w := Nat.and_two_pow_sub_one_eq_mod x w

theorem val_append (xs ys : List Byte) : val (xs ++ ys) = val xs + 2 ^ (8 * xs.length) * val ys := by
  induction xs with
  | nil => simp [val]
  | cons d ds ih =>
    have h : 2 ^ (8 * (ds.length + 1)) = 256 * 2 ^ (8 * ds.length) := by rw [Nat.mul_add, Nat.pow_add]; omega
    simp only [List.cons_append, val, ih, List.length_cons, h]
    ring

theorem val_lt (xs : List Byte) : val xs < 2 ^ (8 * xs.length) := by
  induction xs with
  | nil => simp [val]
  | cons d ds ih =>
    have h : 2 ^ (8 * (ds.length + 1)) = 256 * 2 ^ (8 * ds.length) := by rw [Nat.mul_add, Nat.pow_add]; omega
    have := d.isLt
    simp only [val, List.length_cons, h]
    omega

/-! ### The accumulator primitives -/

@[simp] theorem clear_eq (s : State) : clear s = s.setAcc 0#Config.accBits := rfl

theorem place_acc (v o : Nat) (s : State) :
    (place v o s).acc.toNat = (s.acc.toNat ||| (v <<< o)) % 2 ^ Config.accBits := by
  exact BitVec.toNat_ofNat _ _

theorem place_eq_setAcc (v o : Nat) (s : State) : place v o s = s.setAcc (place v o s).acc := rfl

theorem loadByte_eq_setAcc (din : List Byte) (s : State) (k : Nat) :
    loadByte din s k = s.setAcc (loadByte din s k).acc := by
  unfold loadByte; split <;> rfl

/-- `LOAD` changes `ACC` only. -/
theorem load_eq_setAcc (nbytes : Nat) (din : List Byte) (s : State) :
    load nbytes din s = s.setAcc (load nbytes din s).acc := by
  unfold load
  generalize List.range nbytes = ks
  induction ks generalizing s with
  | nil => rfl
  | cons k ks ih =>
    rw [List.foldl_cons, ih, loadByte_eq_setAcc]
    rfl

@[simp] theorem slice_length (nbytes : Nat) (s : State) : (slice nbytes s).length = nbytes := by simp [slice]

theorem extract_lt (o w : Nat) (s : State) : extract o w s < 2 ^ w := by
  rw [extract, and_mask]; exact Nat.mod_lt _ (Nat.two_pow_pos w)

/-! ### The field loops -/

/-- The packing loop changes `ACC` and `i` only. -/
theorem placeFields_eq (width : Nat) (fs : List Nat) (i : Nat) (s : State) :
    placeFields width fs i s =
      (s.setI (placeFields width fs i s).i).setAcc (placeFields width fs i s).acc := by
  induction fs generalizing i s with
  | nil => rfl
  | cons f fs ih => rw [placeFields, ih, place_eq_setAcc]; rfl

@[simp] theorem extractFields_length (width n : Nat) (s : State) : (extractFields width n s).length = n := by
  simp [extractFields]

/-- The unpacking loop writes `i` only. -/
theorem countFields_eq (n : Nat) (s : State) : countFields n s = s.setI (countFields n s).i := by
  unfold countFields; split <;> rfl

/-! ### What is read of the state is `ACC` -/

theorem placeFields_acc_congr (width : Nat) (fs : List Nat) (i : Nat) {s t : State} (h : s.acc = t.acc) :
    (placeFields width fs i s).acc = (placeFields width fs i t).acc := by
  induction fs generalizing i s t with
  | nil => exact h
  | cons f fs ih => exact ih _ (by simp only [place, setAcc_acc, setI_acc, h])

theorem load_acc_congr (nbytes : Nat) (din : List Byte) {s t : State} (h : s.acc = t.acc) :
    (load nbytes din s).acc = (load nbytes din t).acc := by
  unfold load
  generalize List.range nbytes = ks
  induction ks generalizing s t with
  | nil => exact h
  | cons k ks ih => exact ih (by unfold loadByte; split <;> simp only [setAcc_acc, h])

theorem slice_congr (nbytes : Nat) {s t : State} (h : s.acc = t.acc) : slice nbytes s = slice nbytes t := by
  unfold slice; rw [h]

theorem extractFields_congr (width n : Nat) {s t : State} (h : s.acc = t.acc) :
    extractFields width n s = extractFields width n t := by
  unfold extractFields extract; rw [h]

/-! ### The checks -/

theorem denseWidthBad_iff (binbits : Nat) : denseWidthBad binbits = true ↔ binbits < 1 ∨ 64 < binbits := by
  simp [denseWidthBad, Config.binbitsMin, Config.binbitsMax]

theorem countNegative_iff (m : Int) : countNegative m = true ↔ m < 0 := by simp [countNegative]

theorem sparseWidthBad_iff (b rbits : Nat) :
    sparseWidthBad b rbits = true ↔ 64 < b ∨ 64 < rbits ∨ b + rbits = 0 := by
  rw [sparseWidthBad, decide_eq_true_iff]
  simp only [Config.bMax, Config.rbitsMax, Config.entrybitsMin, entrybits]
  omega

theorem overCeiling_iff (t : Nat) : overCeiling t = true ↔ 2 ^ 20 < t := by
  rw [overCeiling, decide_eq_true_iff, Config.ceilingBits]

theorem elementBad_iff (binbits : Nat) (x : RegElem) :
    elementBad binbits x = true ↔ x.toInt < 0 ∨ ((2 ^ binbits - 1 : Nat) : Int) < x.toInt := by
  rw [elementBad, decide_eq_true_iff, elementValue, mask]

theorem dataShort_iff (len need : Nat) : dataShort len need = true ↔ len < need := by simp [dataShort]

end Sys2Proof.Machine
end

