-- ==== Sys2Proof/Laws/Exec.lean ====
section
/-! SUPPORT. What an operation can answer, said once: its payload is of its own kind and the next state is the one its
definition on that payload gives, or the payload is of another kind and it refuses. -/

namespace Sys2Proof.Machine

theorem execDpack_of_elements {s : State} {regs : List RegElem} (h : s.pin = .elements regs) (binbits : Nat) :
    exec (.dpack binbits) s = .next (dpackRegisters binbits regs s) := by
  simp only [exec, execDpack, h]

theorem execDunpack_of_bytes {s : State} {data : List Byte} (h : s.pin = .bytes data) (m : Int) (binbits : Nat) :
    exec (.dunpack m binbits) s = .next (dunpackData m binbits data s) := by
  simp only [exec, execDunpack, h]

theorem execScompress_of_entries {s : State} {es : List Entry} (h : s.pin = .entries es) (b rbits : Nat) :
    exec (.scompress b rbits) s = .next (scompressEntries b rbits es s) := by
  simp only [exec, execScompress, h]

theorem execSdecompress_of_bytes {s : State} {data : List Byte} (h : s.pin = .bytes data) (b rbits : Nat) :
    exec (.sdecompress b rbits) s = .next (sdecompressData b rbits data s) := by
  simp only [exec, execSdecompress, h]

theorem execDpack_next {binbits : Nat} {s t : State} (h : exec (.dpack binbits) s = .next t) :
    ∃ regs, s.pin = .elements regs ∧ t = dpackRegisters binbits regs s := by
  cases hp : s.pin <;> simp only [exec, execDpack, hp, Host.Outcome.next.injEq, reduceCtorEq] at h
  exact ⟨_, rfl, h.symm⟩

theorem execDunpack_next {m : Int} {binbits : Nat} {s t : State} (h : exec (.dunpack m binbits) s = .next t) :
    ∃ data, s.pin = .bytes data ∧ t = dunpackData m binbits data s := by
  cases hp : s.pin <;> simp only [exec, execDunpack, hp, Host.Outcome.next.injEq, reduceCtorEq] at h
  exact ⟨_, rfl, h.symm⟩

theorem execScompress_next {b rbits : Nat} {s t : State} (h : exec (.scompress b rbits) s = .next t) :
    ∃ es, s.pin = .entries es ∧ t = scompressEntries b rbits es s := by
  cases hp : s.pin <;> simp only [exec, execScompress, hp, Host.Outcome.next.injEq, reduceCtorEq] at h
  exact ⟨_, rfl, h.symm⟩

theorem execSdecompress_next {b rbits : Nat} {s t : State} (h : exec (.sdecompress b rbits) s = .next t) :
    ∃ data, s.pin = .bytes data ∧ t = sdecompressData b rbits data s := by
  cases hp : s.pin <;> simp only [exec, execSdecompress, hp, Host.Outcome.next.injEq, reduceCtorEq] at h
  exact ⟨_, rfl, h.symm⟩

/-! ### The four operations, case by case -/

section Dpack

variable (binbits : Nat) (regs : List RegElem) (s : State)

theorem dpackRegisters_of_width (h : binbits < 1 ∨ 64 < binbits) :
    dpackRegisters binbits regs s = (s.setN regs.length).raise .bytes .invalidArgument := by
  simp only [dpackRegisters, (denseWidthBad_iff binbits).2 h, if_true]

variable {binbits}

theorem dpackRegisters_of_ceiling (h : ¬ (binbits < 1 ∨ 64 < binbits)) (hc : 2 ^ 20 < regs.length * binbits) :
    dpackRegisters binbits regs s =
      ((s.setN regs.length).setTotalBits (regs.length * binbits)).raise .bytes .capacityExceeded := by
  simp only [dpackRegisters, mt (denseWidthBad_iff binbits).1 h, (overCeiling_iff _).2 hc, if_true, Bool.false_eq_true, if_false]

theorem dpackRegisters_of_element (h : ¬ (binbits < 1 ∨ 64 < binbits)) (hc : ¬ 2 ^ 20 < regs.length * binbits)
    (he : regs.any (elementBad binbits) = true) :
    dpackRegisters binbits regs s =
      ((s.setN regs.length).setTotalBits (regs.length * binbits)).raise .bytes .invalidArgument := by
  simp only [dpackRegisters, mt (denseWidthBad_iff binbits).1 h, mt (overCeiling_iff _).1 hc, he, if_true, Bool.false_eq_true, if_false]

theorem dpackRegisters_of_legal (h : ¬ (binbits < 1 ∨ 64 < binbits)) (hc : ¬ 2 ^ 20 < regs.length * binbits)
    (he : regs.any (elementBad binbits) = false) :
    dpackRegisters binbits regs s =
      packRegisters binbits regs ((s.setN regs.length).setTotalBits (regs.length * binbits)) := by
  simp only [dpackRegisters, mt (denseWidthBad_iff binbits).1 h, mt (overCeiling_iff _).1 hc, he, Bool.false_eq_true, if_false]

end Dpack

/-- The packing loop's end state from a cleared `ACC`, and the one response: every other field is as it was. -/
theorem packRegisters_eq (binbits : Nat) (regs : List RegElem) (s : State) :
    packRegisters binbits regs s =
      (let t := placeFields binbits (regs.map (denseField binbits)) 0 (clear s)
       ((s.setI t.i).setAcc t.acc).respond ⟨.ok, .bytes (slice (bytesFor (regs.length * binbits)) t)⟩) := by
  simp only [packRegisters]
  rw [placeFields_eq]
  rfl

section Dunpack

variable (m : Int) (binbits : Nat) (data : List Byte) (s : State)

theorem dunpackData_of_arguments (h : binbits < 1 ∨ 64 < binbits ∨ m < 0) :
    dunpackData m binbits data s = s.raise .values .invalidArgument := by
  have hw := denseWidthBad_iff binbits
  have hm := countNegative_iff m
  unfold dunpackData
  split
  · rfl
  · split
    · rfl
    · exact absurd h (by rw [← or_assoc, ← hw, ← hm]; simp_all)

variable {m binbits}

theorem dunpackData_of_ceiling (h : ¬ (binbits < 1 ∨ 64 < binbits)) (hm : ¬ m < 0)
    (hc : 2 ^ 20 < m.toNat * binbits) :
    dunpackData m binbits data s =
      ((s.setN m.toNat).setTotalBits (m.toNat * binbits)).raise .values .capacityExceeded := by
  simp only [dunpackData, mt (denseWidthBad_iff binbits).1 h, mt (countNegative_iff m).1 hm,
    (overCeiling_iff _).2 hc, if_true, Bool.false_eq_true, if_false]

theorem dunpackData_of_short (h : ¬ (binbits < 1 ∨ 64 < binbits)) (hm : ¬ m < 0)
    (hc : ¬ 2 ^ 20 < m.toNat * binbits) (hd : data.length < bytesFor (m.toNat * binbits)) :
    dunpackData m binbits data s =
      ((s.setN m.toNat).setTotalBits (m.toNat * binbits)).raise .values .insufficientData := by
  simp only [dunpackData, mt (denseWidthBad_iff binbits).1 h, mt (countNegative_iff m).1 hm,
    mt (overCeiling_iff _).1 hc, (dataShort_iff _ _).2 hd, if_true, Bool.false_eq_true, if_false]

theorem dunpackData_of_legal (h : ¬ (binbits < 1 ∨ 64 < binbits)) (hm : ¬ m < 0)
    (hc : ¬ 2 ^ 20 < m.toNat * binbits) (hd : ¬ data.length < bytesFor (m.toNat * binbits)) :
    dunpackData m binbits data s =
      unpackRegisters m.toNat binbits data ((s.setN m.toNat).setTotalBits (m.toNat * binbits)) := by
  simp only [dunpackData, mt (denseWidthBad_iff binbits).1 h, mt (countNegative_iff m).1 hm,
    mt (overCeiling_iff _).1 hc, mt (dataShort_iff _ _).1 hd, Bool.false_eq_true, if_false]

end Dunpack

/-- `ACC` after `LOAD`, the loop's index, and the one response: every other field is as it was. -/
theorem unpackRegisters_eq (count binbits : Nat) (data : List Byte) (s : State) :
    unpackRegisters count binbits data s =
      (let t := load (bytesFor (count * binbits)) data (clear s)
       ((s.setI (countFields count s).i).setAcc t.acc).respond
         ⟨.ok, .values ((extractFields binbits count t).map denseValue)⟩) := by
  simp only [unpackRegisters]
  rw [load_eq_setAcc]
  unfold countFields
  split <;> rfl

section Scompress

variable {b rbits : Nat} (es : List Entry) (s : State)

theorem scompressEntries_of_width (h : 64 < b ∨ 64 < rbits ∨ b + rbits = 0) :
    scompressEntries b rbits es s = s.raise .bytes .invalidArgument := by
  simp only [scompressEntries, (sparseWidthBad_iff b rbits).2 h, if_true]

theorem scompressEntries_of_ceiling (h : ¬ (64 < b ∨ 64 < rbits ∨ b + rbits = 0))
    (hc : 2 ^ 20 < es.length * (b + rbits)) :
    scompressEntries b rbits es s =
      ((s.setN es.length).setTotalBits (es.length * (b + rbits))).raise .bytes .capacityExceeded := by
  simp only [scompressEntries, entrybits, mt (sparseWidthBad_iff b rbits).1 h, (overCeiling_iff _).2 hc, if_true,
    Bool.false_eq_true, if_false]

theorem scompressEntries_of_legal (h : ¬ (64 < b ∨ 64 < rbits ∨ b + rbits = 0))
    (hc : ¬ 2 ^ 20 < es.length * (b + rbits)) :
    scompressEntries b rbits es s =
      packEntries b rbits es ((s.setN es.length).setTotalBits (es.length * (b + rbits))) := by
  simp only [scompressEntries, entrybits, mt (sparseWidthBad_iff b rbits).1 h, mt (overCeiling_iff _).1 hc, Bool.false_eq_true, if_false]

end Scompress

/-- The packing loop's end state from a cleared `ACC`, and the one response: every other field is as it was. -/
theorem packEntries_eq (b rbits : Nat) (es : List Entry) (s : State) :
    packEntries b rbits es s =
      (let t := placeFields (b + rbits) (es.map (sparseField rbits)) 0 (clear s)
       ((s.setI t.i).setAcc t.acc).respond ⟨.ok, .bytes (slice (bytesFor (es.length * (b + rbits))) t)⟩) := by
  simp only [packEntries, entrybits]
  rw [placeFields_eq]
  rfl

section Sdecompress

variable {b rbits : Nat} (data : List Byte) (s : State)

theorem sdecompressData_of_width (h : 64 < b ∨ 64 < rbits ∨ b + rbits = 0) :
    sdecompressData b rbits data s = s.raise .entries .invalidArgument := by
  simp only [sdecompressData, (sparseWidthBad_iff b rbits).2 h, if_true]

theorem sdecompressData_of_ceiling (h : ¬ (64 < b ∨ 64 < rbits ∨ b + rbits = 0)) (hc : 2 ^ 20 < 8 * data.length) :
    sdecompressData b rbits data s = (s.setTotalBits (8 * data.length)).raise .entries .capacityExceeded := by
  simp only [sdecompressData, mt (sparseWidthBad_iff b rbits).1 h, (overCeiling_iff _).2 hc, if_true, Bool.false_eq_true, if_false]

theorem sdecompressData_of_legal (h : ¬ (64 < b ∨ 64 < rbits ∨ b + rbits = 0)) (hc : ¬ 2 ^ 20 < 8 * data.length) :
    sdecompressData b rbits data s = unpackEntries b rbits data (s.setTotalBits (8 * data.length)) := by
  simp only [sdecompressData, mt (sparseWidthBad_iff b rbits).1 h, mt (overCeiling_iff _).1 hc, Bool.false_eq_true, if_false]

end Sdecompress

/-- `ACC` after `LOAD`, `n`, the loop's index, and the one response: every other field is as it was. -/
theorem unpackEntries_eq (b rbits : Nat) (data : List Byte) (s : State) :
    unpackEntries b rbits data s =
      (let count := entryCount data.length (b + rbits)
       let t := load data.length data (clear s)
       (((s.setN count).setI (countFields count s).i).setAcc t.acc).respond
         ⟨.ok, .entries ((extractFields (b + rbits) count t).map (sparseEntry rbits))⟩) := by
  simp only [unpackEntries, entrybits]
  rw [load_eq_setAcc]
  unfold countFields
  split <;> rfl

/-- `step` on an idle block with a request is `handle`. -/
theorem step_of_request {s : State} {q : Request} {rest : List Request} (hi : s.inProgress = false)
    (hq : s.requests = q :: rest) : step s = handle q rest s := by
  simp [step, hi, hq]

end Sys2Proof.Machine
end

