-- ==== Sys2Proof/Laws/PerInstr.lean ====
section
/-! SUPPORT. Families of statements made per instruction. `EncodesLegally`: the command word of a well-formed
instruction is legal, so the decoder does not reject it (R62, R75). -/

namespace Sys2Proof.Laws.EncodesLegally

/-- The encoded word has no must-be-zero field that is not zero (R62, R75). -/
def Statement (i : Instr) : Prop := i.WellFormed → illegalField (encode i) = none

theorem dpack (binbits : Nat) : Statement (.dpack binbits) := by
  intro _; simp [illegalField, encode]

theorem dunpack (m : Int) (binbits : Nat) : Statement (.dunpack m binbits) := by
  intro _; simp [illegalField, encode]

theorem scompress (b rbits : Nat) : Statement (.scompress b rbits) := by
  intro _; simp [illegalField, encode]

theorem sdecompress (b rbits : Nat) : Statement (.sdecompress b rbits) := by
  intro _; simp [illegalField, encode]

end Sys2Proof.Laws.EncodesLegally
end

