-- ==== Sys2Proof/Tests/Slice0.lean ====
section
/-! SUPPORT. Tests of the model on the spec's vectors (95_test_vectors.md), and for every obligation with hypotheses a
witness that meets them. -/

namespace Sys2Proof.Tests

open Sys2Proof.Machine

/-! ### Helpers -/

/-- An accepted request with this payload, after reset. -/
def withPin (p : InPayload) : State := { State.reset with pin := p, inProgress := true }

/-- The reset state with these requests to come. -/
def withRequests (qs : List Request) : State := { State.reset with requests := qs }

/-- The last response of an outcome. -/
def answer (o : Host.Outcome State Fault Refusal) : Option Response :=
  match o with
  | .next t => t.responses.getLast?
  | .fault _ => none
  | .refused _ => none

/-- An entry from two numbers. -/
def entry (index rho : Nat) : Entry := ⟨BitVec.ofNat 64 index, BitVec.ofNat 64 rho⟩

/-! ### WellFormed refuses what no command word can carry -/

theorem test_dpack_width_ill_formed : ¬ (Instr.dpack 256).WellFormed := by decide

theorem test_dunpack_width_ill_formed : ¬ (Instr.dunpack 0 256).WellFormed := by decide

theorem test_dunpack_count_low_ill_formed : ¬ (Instr.dunpack (-2147483649) 1).WellFormed := by decide

theorem test_dunpack_count_high_ill_formed : ¬ (Instr.dunpack 2147483648 1).WellFormed := by decide

theorem test_scompress_b_ill_formed : ¬ (Instr.scompress 256 6).WellFormed := by decide

theorem test_scompress_rbits_ill_formed : ¬ (Instr.scompress 4 256).WellFormed := by decide

theorem test_sdecompress_b_ill_formed : ¬ (Instr.sdecompress 256 6).WellFormed := by decide

theorem test_sdecompress_rbits_ill_formed : ¬ (Instr.sdecompress 4 256).WellFormed := by decide

theorem test_request_kind_ill_formed : ¬ (Request.mk 0x401#64 (.elements [])).WellFormed := by decide

/-! ### Words written out by R61: M (32), RSV1 (8), B (8), W (8), RSV0 (6), OP (2) -/

theorem test_decode_dpack :
    decode (0b00000000000000000000000000000000#32 ++ 0b00000000#8 ++ 0b00000000#8 ++ 0b01000000#8 ++ 0b000000#6 ++
      0b00#2) = .ok (.dpack 64) := by decide

theorem test_decode_dunpack :
    decode (0b00000000000000000000000000000011#32 ++ 0b00000000#8 ++ 0b00000000#8 ++ 0b00000100#8 ++ 0b000000#6 ++
      0b01#2) = .ok (.dunpack 3 4) := by decide

theorem test_decode_dunpack_least_count :
    decode (0b10000000000000000000000000000000#32 ++ 0b00000000#8 ++ 0b00000000#8 ++ 0b00000001#8 ++ 0b000000#6 ++
      0b01#2) = .ok (.dunpack (-2147483648) 1) := by decide

theorem test_decode_scompress :
    decode (0b00000000000000000000000000000000#32 ++ 0b00000000#8 ++ 0b00001110#8 ++ 0b00000110#8 ++ 0b000000#6 ++
      0b10#2) = .ok (.scompress 14 6) := by decide

theorem test_decode_sdecompress :
    decode (0b00000000000000000000000000000000#32 ++ 0b00000000#8 ++ 0b11111111#8 ++ 0b11111110#8 ++ 0b000000#6 ++
      0b11#2) = .ok (.sdecompress 255 254) := by decide

/-- 95_test_vectors.md 2.7: the illegal words. -/
theorem test_decode_illegal :
    decode 0x0000000000010400#64 = .error .bNotZero ∧ decode 0x0000000100000400#64 = .error .mNotZero ∧
    decode 0x0000000001000400#64 = .error .rsv1NotZero ∧ decode 0x0000000000000404#64 = .error .rsv0NotZero ∧
    decode 0x0000000300010401#64 = .error .bNotZero ∧ decode 0x0000000100040602#64 = .error .mNotZero ∧
    decode 0x8000000000040603#64 = .error .mNotZero := by decide

theorem test_encode_words :
    encode (.dpack 4) = 0x0000000000000400#64 ∧ encode (.dunpack (-1) 4) = 0xFFFFFFFF00000401#64 ∧
    encode (.scompress 4 6) = 0x0000000000040602#64 ∧ encode (.sdecompress 4 6) = 0x0000000000040603#64 := by decide

theorem test_decode_table_word :
    decodeTableWord 64 0x0000000300000401 = some (.dunpack 3 4) ∧ decodeTableWord 16 0x0401 = some (.dunpack 0 4) ∧
    decodeTableWord 64 0x0000000000000404 = none := by decide

/-! ### Operations on the spec's vectors -/

/-- 2.2: fields that straddle a byte boundary. -/
theorem test_dpack_straddling :
    answer (exec (.dpack 3) (withPin (.elements [7, 0, 5, 2, 1]))) = some ⟨.ok, .bytes [0x47, 0x15]⟩ := by
  decide +kernel

/-- 2.2: one bad element at the end aborts all. -/
theorem test_dpack_bad_last_element :
    answer (exec (.dpack 4) (withPin (.elements [0, 0, 16]))) = some ⟨.error .invalidArgument, .bytes []⟩ := by
  decide +kernel

/-- 2.3: extra bytes and padding bits are ignored. -/
theorem test_dunpack_padding :
    answer (exec (.dunpack 3 4) (withPin (.bytes [0x21, 0xF3, 0xFF]))) = some ⟨.ok, .values [1, 2, 3]⟩ := by
  decide +kernel

/-- 2.3: one byte where two are needed. -/
theorem test_dunpack_short :
    answer (exec (.dunpack 3 4) (withPin (.bytes [0x21]))) = some ⟨.error .insufficientData, .values []⟩ := by
  decide +kernel

/-- 2.4: an out-of-range index is OR-ed into the next entry. -/
theorem test_scompress_index_overflow :
    answer (exec (.scompress 4 6) (withPin (.entries [entry 16 5, entry 1 10]))) =
      some ⟨.ok, .bytes [0x05, 0x2C, 0x01]⟩ := by decide +kernel

/-- 2.4: bits above the last byte are dropped. -/
theorem test_scompress_bits_above_output :
    answer (exec (.scompress 1 2) (withPin (.entries [entry 255 1]))) = some ⟨.ok, .bytes [0xFD]⟩ := by decide +kernel

/-- 2.5: a spurious entry. -/
theorem test_sdecompress_spurious :
    answer (exec (.sdecompress 1 2) (withPin (.bytes [0x05]))) = some ⟨.ok, .entries [entry 1 1, entry 0 0]⟩ := by
  decide +kernel

/-- 2.5: left-over bits are ignored even when one. -/
theorem test_sdecompress_leftover :
    answer (exec (.sdecompress 4 6) (withPin (.bytes [0x05, 0x28, 0xF1]))) =
      some ⟨.ok, .entries [entry 0 5, entry 1 10]⟩ := by decide +kernel

/-- P3 step 6: an illegal command word. -/
theorem test_step_illegal_word :
    answer (step (withRequests [⟨0x0000000000000404#64, .elements [1, 2, 3]⟩])) =
      some ⟨.error .invalidArgument, .bytes []⟩ := by decide +kernel

/-- V1 through a step. -/
theorem test_step_dpack :
    answer (step (withRequests [⟨0x0000000000000400#64, .elements [1, 2, 3]⟩])) = some ⟨.ok, .bytes [0x21, 0x03]⟩ := by
  decide +kernel

/-- A fetched word runs right after reset. -/
theorem test_fetch_word :
    answer (step (State.reset.withFetchWord 64 0x0000000000040602)) = some ⟨.ok, .bytes []⟩ := by decide +kernel

/-! ### The accumulator primitives on the vectors of 2.1 -/

/-- OR, not addition. -/
theorem test_place_ors :
    (place 1 4 (place 1 4 (place 0x321 0 (clear State.reset)))).acc.toNat = 0x331 := by decide +kernel

/-- Bit `2^20` is dropped. -/
theorem test_place_drops :
    (place 3 (2 ^ 20 - 1) (clear State.reset)).acc.toNat >>> (2 ^ 20 - 1) = 1 := by decide +kernel

/-- A byte-buffer field across a byte boundary. -/
theorem test_buffer_place : bufferPlace 0x1FF 7 9 [0, 0] = [0x80, 0xFF] := by decide +kernel

theorem test_buffer_extract : bufferExtract 7 9 [0x80, 0xFF] = 0x1FF := by decide +kernel

/-! ### Witnesses: for each obligation with hypotheses, a case that meets them -/

theorem witness_DecodeEncodeRoundTrip :
    (Instr.dpack 255).WellFormed ∧ (Instr.dunpack (-2147483648) 255).WellFormed ∧
    (Instr.dunpack 2147483647 0).WellFormed ∧ (Instr.scompress 255 0).WellFormed ∧
    (Instr.sdecompress 0 255).WellFormed := by decide

theorem witness_DecodedWordIsItsEncoding : decode 0x8000000000000101#64 = .ok (.dunpack (-2147483648) 1) := by decide

theorem witness_DecodeFollowsOpcodeTable :
    decode 0x000000000000FF00#64 = .ok (.dpack 255) ∧
    (∀ row ∈ opcodeTable, row.pattern &&& row.mask = row.pattern) := by decide

theorem witness_ScalarsAreFieldsOfTheWord :
    decode 0x000000000000FF00#64 = .ok (.dpack 255) ∧ decode 0x7FFFFFFF00000101#64 = .ok (.dunpack 2147483647 1) ∧
    decode 0x8000000000000101#64 = .ok (.dunpack (-2147483648) 1) ∧
    decode 0x0000000000FF0002#64 = .ok (.scompress 255 0) ∧
    decode 0x000000000000FF03#64 = .ok (.sdecompress 0 255) := by decide

/-- One illegal word for each must-be-zero field, and a legal one. -/
theorem witness_IllegalWordAnswersInvalidArgument :
    (withRequests [⟨0x4#64, .bytes []⟩]).inProgress = false ∧
    (withRequests [⟨0x4#64, .bytes []⟩]).requests = ⟨0x4#64, .bytes []⟩ :: [] ∧
    (0x4#64).extractLsb' 2 6 ≠ 0 ∧ (0x01000001#64).extractLsb' 24 8 ≠ 0 ∧
    ((0x10000#64).extractLsb' 0 2 = 0 ∧ (0x10000#64).extractLsb' 16 8 ≠ 0) ∧
    ((0x10001#64).extractLsb' 0 2 = 1 ∧ (0x10001#64).extractLsb' 16 8 ≠ 0) ∧
    ((0x100000000#64).extractLsb' 0 2 = 0 ∧ (0x100000000#64).extractLsb' 32 32 ≠ 0) ∧
    ((0x100000002#64).extractLsb' 0 2 = 2 ∧ (0x100000002#64).extractLsb' 32 32 ≠ 0) ∧
    ((0x100000003#64).extractLsb' 0 2 = 3 ∧ (0x100000003#64).extractLsb' 32 32 ≠ 0) := by decide

theorem witness_StepRunsDecodedRequest :
    let q : Request := ⟨0x0000000300000401#64, .bytes [0x21, 0x03]⟩
    (withRequests [q]).inProgress = false ∧ (withRequests [q]).requests = q :: [] ∧
    decode q.cmd = .ok (.dunpack 3 4) := by decide

theorem witness_IdleBlockGivesNoResponse :
    State.reset.inProgress = false ∧ State.reset.requests = [] := by decide

theorem witness_StepWhileInProgressIsRefused : (withPin (.bytes [])).inProgress = true := by decide

/-- A request whose payload is of its kind, as the invariant asks. -/
def goodRequest : Request := ⟨0x0000000000000400#64, .elements [1, 2, 3]⟩

/-- A request whose operation answers with an error. -/
def failingRequest : Request := ⟨0x0000000300000401#64, .bytes [0x21]⟩

theorem witness_requests_well_formed : goodRequest.WellFormed ∧ failingRequest.WellFormed := by decide

theorem inv_withRequests {qs : List Request} (h : ∀ q ∈ qs, q.WellFormed) : (withRequests qs).Inv :=
  ⟨rfl, h, by simp [withRequests, State.reset]⟩

theorem witness_StepKeepsInvariant :
    ∃ s t, s.Inv ∧ s.requests = [goodRequest] ∧ step s = .next t :=
  ⟨withRequests [goodRequest], _, inv_withRequests (by decide), rfl, rfl⟩

theorem witness_StepNeverStopsFromInvariant :
    (withRequests [goodRequest, failingRequest]).Inv := inv_withRequests (by decide)

theorem witness_ResponseDependsOnRequestAlone :
    let s := withRequests [goodRequest]
    let t := { withRequests [goodRequest, failingRequest] with n := 5, acc := BitVec.ofNat Config.accBits 9 }
    goodRequest.WellFormed ∧ s.inProgress = false ∧ s.requests = goodRequest :: [] ∧
    t.inProgress = false ∧ t.requests = goodRequest :: [failingRequest] := by decide

theorem witness_ResponsesFollowRequestOrder :
    (∀ q ∈ [failingRequest, goodRequest], q.WellFormed) ∧
    (withRequests [failingRequest, goodRequest, goodRequest]).inProgress = false ∧
    (withRequests [failingRequest, goodRequest, goodRequest]).requests =
      [failingRequest, goodRequest] ++ [goodRequest] := by decide

theorem witness_EarlierRequestLeavesNoTrace :
    failingRequest.WellFormed ∧ goodRequest.WellFormed ∧
    (withRequests [failingRequest, goodRequest]).inProgress = false ∧
    (withRequests [failingRequest, goodRequest]).requests = failingRequest :: goodRequest :: [] := by decide

theorem witness_ErrorGivesNoOutput :
    ∃ t, exec (.dpack 0) (withPin (.elements [])) = .next t ∧
      t.responses = (withPin (.elements [])).responses ++ [⟨.error .invalidArgument, .bytes []⟩] :=
  ⟨_, rfl, by decide⟩

theorem witness_WrongPayloadKindIsRefused :
    (withPin (.bytes [])).pin.kind ≠ .elements ∧ (withPin (.entries [])).pin.kind ≠ .bytes ∧
    (withPin (.elements [])).pin.kind ≠ .entries := by decide

theorem witness_StatusFollowsCheckOrder :
    (let q : Request := ⟨0x0000000000000404#64, .elements [16]⟩
     (withRequests [q]).inProgress = false ∧ (withRequests [q]).requests = q :: [] ∧
     decode q.cmd = .error .rsv0NotZero) ∧
    (withPin (.elements [16])).pin = .elements [16] ∧ (withPin (.bytes [])).pin = .bytes [] ∧
    (withPin (.entries [])).pin = .entries [] := by decide

theorem witness_ErrorsEachOperationReports :
    (∃ t, exec (.dunpack 3 4) (withPin (.bytes [])) = .next t ∧
      t.responses = (withPin (.bytes [])).responses ++ [⟨.error .insufficientData, .values []⟩]) ∧
    (∃ t, exec (.scompress 65 6) (withPin (.entries [])) = .next t ∧
      t.responses = (withPin (.entries [])).responses ++ [⟨.error .invalidArgument, .bytes []⟩]) ∧
    (∃ t, exec (.sdecompress 0 0) (withPin (.bytes [])) = .next t ∧
      t.responses = (withPin (.bytes [])).responses ++ [⟨.error .invalidArgument, .entries []⟩]) :=
  ⟨⟨_, rfl, by decide⟩, ⟨_, rfl, by decide⟩, ⟨_, rfl, by decide⟩⟩

theorem witness_DenseOperationFrame :
    (∃ t, exec (.dpack 4) (withPin (.elements [1, 2, 3])) = .next t) ∧
    (∃ t, exec (.dunpack 3 4) (withPin (.bytes [0x21])) = .next t) := ⟨⟨_, rfl⟩, ⟨_, rfl⟩⟩

theorem witness_SparseOperationFrame :
    (∃ t, exec (.scompress 4 6) (withPin (.entries [entry 1 10])) = .next t) ∧
    (∃ t, exec (.sdecompress 4 6) (withPin (.bytes [0x05, 0x28])) = .next t) := ⟨⟨_, rfl⟩, ⟨_, rfl⟩⟩

/-- Both sides of the legal range, and the empty payload. -/
theorem witness_DpackRejectsWidth :
    (withPin (.elements [])).pin = .elements [] ∧ (withPin (.elements [1])).pin = .elements [1] ∧ 0 < 1 ∧ 64 < 65 := by
  decide

/-- The least length over the ceiling at width 64 and at width 1. -/
theorem witness_DpackRejectsOverCeiling :
    2 ^ 20 < (List.replicate 16385 (0#65)).length * 64 ∧ 2 ^ 20 < (List.replicate 1048577 (0#65)).length * 1 := by
  simp only [List.length_replicate]; decide

/-- The least value above the range and the greatest below it. -/
theorem witness_DpackRejectsElement :
    (16#65 ∈ [0#65, 0#65, 16#65] ∧ ((2 ^ 4 - 1 : Nat) : Int) < (16#65).toInt) ∧
    (BitVec.ofInt 65 (-1) ∈ [BitVec.ofInt 65 (-1)] ∧ (BitVec.ofInt 65 (-1)).toInt < 0) ∧
    [0#65, 0#65, 16#65].length * 4 ≤ 2 ^ 20 := by decide

theorem witness_DpackOfEmptyIsEmpty :
    (withPin (.elements [])).pin = .elements [] ∧ 1 ≤ 1 ∧ 64 ≤ 64 := by decide

/-- The greatest values at widths 1, 4 and 64. -/
theorem witness_DpackPacksRegisters :
    (withPin (.elements [15, 0])).pin = .elements [15, 0] ∧
    (∀ x ∈ [15#65, 0#65], ElementInRange 4 x) ∧ (∀ x ∈ [1#65], ElementInRange 1 x) ∧
    (∀ x ∈ [0xFFFFFFFFFFFFFFFF#65], ElementInRange 64 x) ∧ [15#65, 0#65].length * 4 ≤ 2 ^ 20 := by
  simp only [List.forall_mem_cons, List.not_mem_nil, false_implies, implies_true, and_true]
  decide

/-- A payload of exactly `2^20` bits. -/
theorem witness_DpackPacksRegisters_at_ceiling :
    (List.replicate 16384 (0#65)).length * 64 ≤ 2 ^ 20 ∧ (∀ x ∈ List.replicate 16384 (0#65), ElementInRange 64 x) := by
  refine ⟨by simp only [List.length_replicate]; decide, fun x hx => ?_⟩
  rw [List.eq_of_mem_replicate hx]
  decide

theorem witness_DpackPaddingIsZero :
    ∃ t, exec (.dpack 4) (withPin (.elements [])) = .next t ∧
      t.responses = (withPin (.elements [])).responses ++ [⟨.ok, .bytes []⟩] :=
  ⟨_, rfl, by decide⟩

theorem witness_DpackInPartsConcatenates :
    (∀ x ∈ [1#65, 2#65] ++ [3#65], ElementInRange 4 x) ∧ 8 ∣ [1#65, 2#65].length * 4 ∧
    ([1#65, 2#65].length + [3#65].length) * 4 ≤ 2 ^ 20 := by
  simp only [List.forall_mem_cons, List.not_mem_nil, false_implies, implies_true, and_true, List.cons_append, List.nil_append]
  decide

theorem witness_DunpackRejectsArguments :
    (withPin (.bytes [])).pin = .bytes [] ∧ 0 < 1 ∧ 64 < 65 ∧ (-1 : Int) < 0 := by decide

theorem witness_DunpackRejectsOverCeiling : (0 : Int) ≤ 262145 ∧ ((2 ^ 20 : Nat) : Int) < 262145 * (4 : Nat) := by decide

/-- One byte too few, and just enough; the total exactly at the ceiling. -/
theorem witness_DunpackRejectsShortData :
    (3 : Int) * (4 : Nat) ≤ ((2 ^ 20 : Nat) : Int) ∧ (([0x21#8].length : Nat) : Int) < (3 * (4 : Nat) + 7) / 8 ∧
    ((3 : Int) * (4 : Nat) + 7) / 8 ≤ (([0x21#8, 3#8].length : Nat) : Int) ∧ (262144 : Int) * (4 : Nat) ≤ ((2 ^ 20 : Nat) : Int) := by
  decide

theorem witness_DunpackExtractsFields :
    (withPin (.bytes [0x21, 0x03])).pin = .bytes [0x21, 0x03] ∧ 3 * 4 ≤ 2 ^ 20 ∧
    (3 * 4 + 7) / 8 ≤ [0x21#8, 0x03#8].length ∧ (0 * 64 + 7) / 8 ≤ ([] : List Byte).length := by decide

theorem witness_DunpackIgnoresPadding :
    val [0x21, 0x03] % 2 ^ (3 * 4) = val [0x21, 0xF3, 0xFF] % 2 ^ (3 * 4) ∧
    (3 * 4 + 7) / 8 ≤ [0x21#8, 0xF3#8, 0xFF#8].length := by decide

theorem witness_DenseRoundTrip :
    (∀ x ∈ [7#65, 0#65, 5#65], ElementInRange 3 x) ∧ [7#65, 0#65, 5#65].length * 3 ≤ 2 ^ 20 ∧
    (5 * 3 + 7) / 8 ≤ [0x47#8, 0xFF#8].length := by
  simp only [List.forall_mem_cons, List.not_mem_nil, false_implies, implies_true, and_true]
  decide

/-- Each cause of the check at its boundary, and legal widths at theirs. -/
theorem witness_SparseWidthsAreChecked :
    (withPin (.entries [])).pin = .entries [] ∧ (withPin (.bytes [])).pin = .bytes [] ∧ 64 < 65 ∧ 0 + 0 = 0 ∧
    1 ≤ 64 + 0 ∧ 1 ≤ 0 + 64 ∧ 1 ≤ 1 + 0 := by decide

theorem witness_ScompressRejectsOverCeiling :
    2 ^ 20 < (List.replicate 104858 (entry 0 0)).length * (4 + 6) ∧
    2 ^ 20 < (List.replicate 8193 (entry 0 0)).length * (64 + 64) := by
  simp only [List.length_replicate]; decide

/-- Entries out of range are in the statement. -/
theorem witness_ScompressPacksEntries :
    (withPin (.entries [entry 16 69])).pin = .entries [entry 16 69] ∧ [entry 16 69].length * (4 + 6) ≤ 2 ^ 20 := by
  decide

theorem witness_ScompressTruncatesRho :
    (withPin (.entries [entry 0 5])).pin =
      .entries ([entry 0 69].map fun e => ⟨e.index, BitVec.ofNat 64 (e.rho.toNat % 2 ^ 6)⟩) := by decide

theorem witness_ScompressPaddingIsZeroInRange :
    (∀ e ∈ [entry 15 69], e.index.toNat < 2 ^ 4) ∧
    ∃ t, exec (.scompress 4 6) (withPin (.entries [])) = .next t ∧
      t.responses = (withPin (.entries [])).responses ++ [⟨.ok, .bytes []⟩] :=
  ⟨by decide, _, rfl, by decide⟩

theorem witness_SdecompressRejectsOverCeiling :
    2 ^ 20 < 8 * (List.replicate 131073 (0#8)).length ∧ 8 * (List.replicate 131072 (0#8)).length ≤ 2 ^ 20 := by
  simp only [List.length_replicate]; decide

theorem witness_SdecompressSplitsFields :
    (withPin (.bytes [5, 0x28, 1])).pin = .bytes [5, 0x28, 1] ∧ 8 * [5#8, 0x28#8, 1#8].length ≤ 2 ^ 20 ∧
    1 ≤ 0 + 6 ∧ 1 ≤ 3 + 0 := by decide

theorem witness_SdecompressIgnoresLeftoverBits :
    val [5, 0x28, 1] % 2 ^ (3 * 8 / (4 + 6) * (4 + 6)) = val [5, 0x28, 0xF1] % 2 ^ (3 * 8 / (4 + 6) * (4 + 6)) := by
  decide

theorem witness_CompositeFieldSplitsBack : EntryInRange 4 6 (entry 15 63) ∧ EntryInRange 64 64 (entry 0 (2 ^ 64 - 1)) := by
  decide

/-- A spurious entry, and none. -/
theorem witness_SpuriousEntryCount :
    entryCount (bytesFor (1 * 3)) 3 = 2 ∧ entryCount (bytesFor (2 * 10)) 10 = 2 := by decide

theorem witness_SparseRoundTrip :
    (∀ e ∈ [entry 3 2, entry 1 1, entry 0 3], EntryInRange 2 2 e) ∧
    [entry 3 2, entry 1 1, entry 0 3].length * (2 + 2) ≤ 2 ^ 20 := by decide

theorem witness_LoadReadsValue : 2 ≤ [0x21#8, 0x03#8, 0xFF#8].length ∧ 2 ≤ 2 ^ 17 := by decide

theorem witness_PlacementOrderDoesNotMatter : [(1, 0), (2, 4)].Perm [(2, 4), (1, 0)] := by decide

theorem witness_DisjointFieldsAreSummed :
    (∀ f ∈ [15, 0, 3], f < 2 ^ 4) ∧ [15, 0, 3].length * 4 ≤ 2 ^ 20 := by decide

theorem witness_PlaceThenExtract :
    (∀ f ∈ [15, 0, 3], f < 2 ^ 4) ∧ [15, 0, 3].length * 4 ≤ 2 ^ 20 ∧ [15, 0, 3][2]? = some 3 := by decide

theorem witness_SliceThenLoad : [5#8, 0x28#8, 1#8].length ≤ 2 ^ 17 := by decide

theorem witness_ByteBufferFormAgrees :
    0x1FF < 2 ^ 9 ∧ 7 + 9 ≤ 8 * [0x80#8, 0xFF#8].length ∧
    ({ State.reset with acc := BitVec.ofNat Config.accBits 0xFF80 } : State).acc.toNat = val [0x80, 0xFF] := by
  decide +kernel

end Sys2Proof.Tests
end

/-! Totality of the step under the invariant (O14): a decoded instruction takes the payload kind of the
word's `OP`, and an operation on a payload of the kind it takes answers a next state. -/

namespace Sys2Proof.Machine

/-- The item kind of the input payload that an instruction takes: `inKindOf` read off the decoded instruction (R27). -/
def instrInKind : Instr → InKind
  | .dpack _ => .elements
  | .dunpack _ _ => .bytes
  | .scompress _ _ => .entries
  | .sdecompress _ _ => .bytes

theorem instrInKind_selectOperation (op : BitVec 2) (w b : BitVec 8) (m : BitVec 32) :
    instrInKind (selectOperation op w b m) = inKindOf op := by
  unfold selectOperation inKindOf
  by_cases h0 : op = 0#2
  · simp [h0, instrInKind]
  · by_cases h1 : op = 1#2
    · simp [h1, instrInKind]
    · by_cases h2 : op = 2#2
      · simp [h2, instrInKind]
      · simp [h0, h1, h2, instrInKind]

/-- A word that decodes gives the operation that its `OP` selects (R62). -/
theorem eq_selectOperation_of_decode {c : Command} {i : Instr} (h : decode c = .ok i) :
    i = selectOperation (CommandWord.op c) (CommandWord.w c) (CommandWord.b c) (CommandWord.m c) := by
  unfold decode at h
  split at h
  · cases h
  · exact (Except.ok.inj h).symm

theorem instrInKind_of_decode {c : Command} {i : Instr} (h : decode c = .ok i) :
    instrInKind i = inKindOf (CommandWord.op c) := by
  rw [eq_selectOperation_of_decode h, instrInKind_selectOperation]

theorem kind_eq_elements_iff (p : InPayload) : p.kind = .elements ↔ ∃ regs, p = .elements regs := by
  cases p <;> simp [InPayload.kind]

theorem kind_eq_bytes_iff (p : InPayload) : p.kind = .bytes ↔ ∃ data, p = .bytes data := by
  cases p <;> simp [InPayload.kind]

theorem kind_eq_entries_iff (p : InPayload) : p.kind = .entries ↔ ∃ es, p = .entries es := by
  cases p <;> simp [InPayload.kind]

/-- An operation on a payload of the kind it takes is total (R13, R147). -/
theorem exec_next_of_kind {i : Instr} {s : State} (h : s.pin.kind = instrInKind i) :
    ∃ t, exec i s = .next t := by
  cases i with
  | dpack binbits =>
    obtain ⟨regs, hp⟩ := (kind_eq_elements_iff s.pin).1 h
    exact ⟨_, execDpack_of_elements hp binbits⟩
  | dunpack m binbits =>
    obtain ⟨data, hp⟩ := (kind_eq_bytes_iff s.pin).1 h
    exact ⟨_, execDunpack_of_bytes hp m binbits⟩
  | scompress b rbits =>
    obtain ⟨es, hp⟩ := (kind_eq_entries_iff s.pin).1 h
    exact ⟨_, execScompress_of_entries hp b rbits⟩
  | sdecompress b rbits =>
    obtain ⟨data, hp⟩ := (kind_eq_bytes_iff s.pin).1 h
    exact ⟨_, execSdecompress_of_bytes hp b rbits⟩

theorem handle_of_legal {q : Request} {i : Instr} (h : decode q.cmd = .ok i) (rest : List Request) (s : State) :
    handle q rest s = exec i (s.accept q rest) := by
  simp only [handle, h]

theorem handle_of_illegal {q : Request} {why : IllegalWord} (h : decode q.cmd = .error why) (rest : List Request)
    (s : State) : handle q rest s = .next (raiseIllegal (s.accept q rest)) := by
  simp only [handle, h]

/-- A request that a host can present is answered, in whatever state it is accepted (R27, R75). -/
theorem handle_next_of_wellFormed {q : Request} (hq : q.WellFormed) (rest : List Request) (s : State) :
    ∃ t, handle q rest s = .next t := by
  cases hd : decode q.cmd with
  | error why => exact ⟨_, handle_of_illegal hd rest s⟩
  | ok i =>
    have hkind : q.pin.kind = instrInKind i := (of_decide_eq_true hq).trans (instrInKind_of_decode hd).symm
    rw [handle_of_legal hd]
    exact exec_next_of_kind hkind

/-- `step` on an idle block with no request keeps the state. -/
theorem step_of_no_request {s : State} (hi : s.inProgress = false) (hr : s.requests = []) : step s = .next s := by
  simp [step, hi, hr]

/-- Settles O14: with no request the state stays; the next request, which a host can present, is answered. -/
theorem stepNeverStopsFromInvariant : Obligations.StepNeverStopsFromInvariant := by
  intro s ⟨hidle, hpresentable, _⟩
  cases hr : s.requests with
  | nil => exact ⟨s, step_of_no_request hidle hr⟩
  | cons q rest =>
    have hq : q.WellFormed := hpresentable q (hr ▸ List.mem_cons_self)
    rw [step_of_request hidle hr]
    exact handle_next_of_wellFormed hq rest s

end Sys2Proof.Machine

/-! What an operation answers (O15, O19, O23, O24): exactly one response, fixed by the instruction and the payload
alone, and nothing else of the state but the working values changes (R20, R22). -/

namespace Sys2Proof.Machine

/-! ### The answer of one operation -/

/-- From `s` to `t` an operation gave exactly the response `r`: apart from it and the end of the operation only `n`,
`total_bits`, `i` and `ACC` may differ, and after an error `ACC` and `i` do not. -/
structure Answers (r : Response) (s t : State) : Prop where
  frame : t = ((((s.setN t.n).setTotalBits t.totalBits).setI t.i).setAcc t.acc).respond r
  unchanged_of_error : r.status ≠ .ok → t.acc = s.acc ∧ t.i = s.i

namespace Answers

variable {r : Response} {s t : State}

theorem responses_eq (h : Answers r s t) : t.responses = s.responses ++ [r] := (congrArg State.responses h.frame :)

theorem requests_eq (h : Answers r s t) : t.requests = s.requests := (congrArg State.requests h.frame :)

theorem inProgress_eq (h : Answers r s t) : t.inProgress = false := (congrArg State.inProgress h.frame :)

theorem pin_eq (h : Answers r s t) : t.pin = s.pin := (congrArg State.pin h.frame :)

theorem op_eq (h : Answers r s t) : t.op = s.op := (congrArg State.op h.frame :)

theorem w_eq (h : Answers r s t) : t.w = s.w := (congrArg State.w h.frame :)

theorem b_eq (h : Answers r s t) : t.b = s.b := (congrArg State.b h.frame :)

theorem m_eq (h : Answers r s t) : t.m = s.m := (congrArg State.m h.frame :)

/-- Writing `n` first adds nothing to what an operation may change. -/
theorem of_setN {n : Nat} (h : Answers r (s.setN n) t) : Answers r s t := ⟨h.frame, h.unchanged_of_error⟩

/-- Writing `total_bits` first adds nothing to what an operation may change. -/
theorem of_setTotalBits {k : Nat} (h : Answers r (s.setTotalBits k) t) : Answers r s t :=
  ⟨h.frame, h.unchanged_of_error⟩

end Answers

theorem answers_raise (k : OutKind) (e : ErrorKind) (s : State) :
    Answers ⟨.error e, .empty k⟩ s (s.raise k e) :=
  ⟨rfl, fun _ => ⟨rfl, rfl⟩⟩

/-- An operation that ends well may have written `i` and `ACC`. -/
theorem answers_ok (i : Nat) (acc : BitVec Config.accBits) (out : OutPayload) (s : State) :
    Answers ⟨.ok, out⟩ s (((s.setI i).setAcc acc).respond ⟨.ok, out⟩) :=
  ⟨rfl, fun h => absurd rfl h⟩

/-! ### Output that does not depend on the state the operation starts from -/

/-- What a packing loop slices: it begins with `CLEAR`, so the state before it does not show (R20, R91). -/
theorem slice_placeFields_clear (nbytes width : Nat) (fs : List Nat) (s t : State) :
    slice nbytes (placeFields width fs 0 (clear s)) = slice nbytes (placeFields width fs 0 (clear t)) :=
  slice_congr nbytes (placeFields_acc_congr width fs 0 rfl)

/-- What an unpacking loop extracts: `LOAD` follows `CLEAR`, so the state before it does not show (R20, R91). -/
theorem extractFields_load_clear (width n nbytes : Nat) (data : List Byte) (s t : State) :
    extractFields width n (load nbytes data (clear s)) = extractFields width n (load nbytes data (clear t)) :=
  extractFields_congr width n (load_acc_congr nbytes data rfl)

theorem packRegisters_answers (binbits : Nat) (regs : List RegElem) :
    ∃ r, ∀ s, Answers r s (packRegisters binbits regs s) := by
  refine ⟨⟨.ok, .bytes (slice (bytesFor (regs.length * binbits))
    (placeFields binbits (regs.map (denseField binbits)) 0 (clear State.reset)))⟩, fun s => ?_⟩
  rw [packRegisters_eq, slice_placeFields_clear _ _ _ State.reset s]
  exact answers_ok ..

theorem unpackRegisters_answers (count binbits : Nat) (data : List Byte) :
    ∃ r, ∀ s, Answers r s (unpackRegisters count binbits data s) := by
  refine ⟨⟨.ok, .values ((extractFields binbits count
    (load (bytesFor (count * binbits)) data (clear State.reset))).map denseValue)⟩, fun s => ?_⟩
  rw [unpackRegisters_eq, extractFields_load_clear _ _ _ _ State.reset s]
  exact answers_ok ..

theorem packEntries_answers (b rbits : Nat) (es : List Entry) :
    ∃ r, ∀ s, Answers r s (packEntries b rbits es s) := by
  refine ⟨⟨.ok, .bytes (slice (bytesFor (es.length * (b + rbits)))
    (placeFields (b + rbits) (es.map (sparseField rbits)) 0 (clear State.reset)))⟩, fun s => ?_⟩
  rw [packEntries_eq, slice_placeFields_clear _ _ _ State.reset s]
  exact answers_ok ..

theorem unpackEntries_answers (b rbits : Nat) (data : List Byte) :
    ∃ r, ∀ s, Answers r s (unpackEntries b rbits data s) := by
  refine ⟨⟨.ok, .entries ((extractFields (b + rbits) (entryCount data.length (b + rbits))
    (load data.length data (clear State.reset))).map (sparseEntry rbits))⟩, fun s => ?_⟩
  rw [unpackEntries_eq, extractFields_load_clear _ _ _ _ State.reset s]
  exact (answers_ok ..).of_setN

/-! ### The four operations: the first failing check in the order of R160, or the packing or unpacking -/

theorem dpackRegisters_answers (binbits : Nat) (regs : List RegElem) :
    ∃ r, ∀ s, Answers r s (dpackRegisters binbits regs s) := by
  by_cases hw : binbits < 1 ∨ 64 < binbits
  · refine ⟨⟨.error .invalidArgument, .empty .bytes⟩, fun s => ?_⟩
    rw [dpackRegisters_of_width _ _ _ hw]
    exact (answers_raise ..).of_setN
  by_cases hc : 2 ^ 20 < regs.length * binbits
  · refine ⟨⟨.error .capacityExceeded, .empty .bytes⟩, fun s => ?_⟩
    rw [dpackRegisters_of_ceiling _ _ hw hc]
    exact (answers_raise ..).of_setTotalBits.of_setN
  cases he : regs.any (elementBad binbits) with
  | true =>
    refine ⟨⟨.error .invalidArgument, .empty .bytes⟩, fun s => ?_⟩
    rw [dpackRegisters_of_element _ _ hw hc he]
    exact (answers_raise ..).of_setTotalBits.of_setN
  | false =>
    obtain ⟨r, hr⟩ := packRegisters_answers binbits regs
    refine ⟨r, fun s => ?_⟩
    rw [dpackRegisters_of_legal _ _ hw hc he]
    exact (hr _).of_setTotalBits.of_setN

theorem dunpackData_answers (m : Int) (binbits : Nat) (data : List Byte) :
    ∃ r, ∀ s, Answers r s (dunpackData m binbits data s) := by
  by_cases ha : binbits < 1 ∨ 64 < binbits ∨ m < 0
  · refine ⟨⟨.error .invalidArgument, .empty .values⟩, fun s => ?_⟩
    rw [dunpackData_of_arguments _ _ _ _ ha]
    exact answers_raise ..
  obtain ⟨hw, hm⟩ : ¬ (binbits < 1 ∨ 64 < binbits) ∧ ¬ m < 0 := by omega
  by_cases hc : 2 ^ 20 < m.toNat * binbits
  · refine ⟨⟨.error .capacityExceeded, .empty .values⟩, fun s => ?_⟩
    rw [dunpackData_of_ceiling _ _ hw hm hc]
    exact (answers_raise ..).of_setTotalBits.of_setN
  by_cases hd : data.length < bytesFor (m.toNat * binbits)
  · refine ⟨⟨.error .insufficientData, .empty .values⟩, fun s => ?_⟩
    rw [dunpackData_of_short _ _ hw hm hc hd]
    exact (answers_raise ..).of_setTotalBits.of_setN
  · obtain ⟨r, hr⟩ := unpackRegisters_answers m.toNat binbits data
    refine ⟨r, fun s => ?_⟩
    rw [dunpackData_of_legal _ _ hw hm hc hd]
    exact (hr _).of_setTotalBits.of_setN

theorem scompressEntries_answers (b rbits : Nat) (es : List Entry) :
    ∃ r, ∀ s, Answers r s (scompressEntries b rbits es s) := by
  by_cases hw : 64 < b ∨ 64 < rbits ∨ b + rbits = 0
  · refine ⟨⟨.error .invalidArgument, .empty .bytes⟩, fun s => ?_⟩
    rw [scompressEntries_of_width _ _ hw]
    exact answers_raise ..
  by_cases hc : 2 ^ 20 < es.length * (b + rbits)
  · refine ⟨⟨.error .capacityExceeded, .empty .bytes⟩, fun s => ?_⟩
    rw [scompressEntries_of_ceiling _ _ hw hc]
    exact (answers_raise ..).of_setTotalBits.of_setN
  · obtain ⟨r, hr⟩ := packEntries_answers b rbits es
    refine ⟨r, fun s => ?_⟩
    rw [scompressEntries_of_legal _ _ hw hc]
    exact (hr _).of_setTotalBits.of_setN

theorem sdecompressData_answers (b rbits : Nat) (data : List Byte) :
    ∃ r, ∀ s, Answers r s (sdecompressData b rbits data s) := by
  by_cases hw : 64 < b ∨ 64 < rbits ∨ b + rbits = 0
  · refine ⟨⟨.error .invalidArgument, .empty .entries⟩, fun s => ?_⟩
    rw [sdecompressData_of_width _ _ hw]
    exact answers_raise ..
  by_cases hc : 2 ^ 20 < 8 * data.length
  · refine ⟨⟨.error .capacityExceeded, .empty .entries⟩, fun s => ?_⟩
    rw [sdecompressData_of_ceiling _ _ hw hc]
    exact (answers_raise ..).of_setTotalBits
  · obtain ⟨r, hr⟩ := unpackEntries_answers b rbits data
    refine ⟨r, fun s => ?_⟩
    rw [sdecompressData_of_legal _ _ hw hc]
    exact (hr _).of_setTotalBits

/-! ### Every instruction -/

/-- An operation refuses a payload of a kind other than the one it takes (R27, log 5). -/
theorem exec_refused_of_kind_ne {i : Instr} {s : State} (h : s.pin.kind ≠ instrInKind i) :
    exec i s = .refused .payloadKind := by
  cases i with
  | dpack binbits =>
    cases hp : s.pin with
    | elements regs => exact absurd (congrArg InPayload.kind hp) h
    | bytes data => simp only [exec, execDpack, hp]
    | entries es => simp only [exec, execDpack, hp]
  | dunpack m binbits =>
    cases hp : s.pin with
    | elements regs => simp only [exec, execDunpack, hp]
    | bytes data => exact absurd (congrArg InPayload.kind hp) h
    | entries es => simp only [exec, execDunpack, hp]
  | scompress b rbits =>
    cases hp : s.pin with
    | elements regs => simp only [exec, execScompress, hp]
    | bytes data => simp only [exec, execScompress, hp]
    | entries es => exact absurd (congrArg InPayload.kind hp) h
  | sdecompress b rbits =>
    cases hp : s.pin with
    | elements regs => simp only [exec, execSdecompress, hp]
    | bytes data => exact absurd (congrArg InPayload.kind hp) h
    | entries es => simp only [exec, execSdecompress, hp]

theorem kind_eq_of_exec_next {i : Instr} {s t : State} (h : exec i s = .next t) : s.pin.kind = instrInKind i := by
  by_contra hne
  rw [exec_refused_of_kind_ne hne] at h
  cases h

/-- On a payload of the kind it takes, an instruction has one response, whatever else the state holds (R20). -/
theorem exec_answers {i : Instr} {p : InPayload} (h : p.kind = instrInKind i) :
    ∃ r, ∀ s : State, s.pin = p → ∃ t, exec i s = .next t ∧ Answers r s t := by
  cases i with
  | dpack binbits =>
    obtain ⟨regs, rfl⟩ := (kind_eq_elements_iff p).1 h
    obtain ⟨r, hr⟩ := dpackRegisters_answers binbits regs
    exact ⟨r, fun s hp => ⟨_, execDpack_of_elements hp binbits, hr s⟩⟩
  | dunpack m binbits =>
    obtain ⟨data, rfl⟩ := (kind_eq_bytes_iff p).1 h
    obtain ⟨r, hr⟩ := dunpackData_answers m binbits data
    exact ⟨r, fun s hp => ⟨_, execDunpack_of_bytes hp m binbits, hr s⟩⟩
  | scompress b rbits =>
    obtain ⟨es, rfl⟩ := (kind_eq_entries_iff p).1 h
    obtain ⟨r, hr⟩ := scompressEntries_answers b rbits es
    exact ⟨r, fun s hp => ⟨_, execScompress_of_entries hp b rbits, hr s⟩⟩
  | sdecompress b rbits =>
    obtain ⟨data, rfl⟩ := (kind_eq_bytes_iff p).1 h
    obtain ⟨r, hr⟩ := sdecompressData_answers b rbits data
    exact ⟨r, fun s hp => ⟨_, execSdecompress_of_bytes hp b rbits, hr s⟩⟩

theorem answers_of_exec_next {i : Instr} {s t : State} (h : exec i s = .next t) : ∃ r, Answers r s t := by
  obtain ⟨r, hr⟩ := exec_answers (kind_eq_of_exec_next h)
  obtain ⟨t', ht', hans⟩ := hr s rfl
  rw [h] at ht'
  cases ht'
  exact ⟨r, hans⟩

/-- The frame of every operation, dense or sparse (R20, R22, R47). -/
theorem exec_frame {i : Instr} {s t : State} (h : exec i s = .next t) :
    t.requests = s.requests ∧ t.pin = s.pin ∧ t.op = s.op ∧ t.w = s.w ∧ t.b = s.b ∧ t.m = s.m ∧
    t.inProgress = false ∧
    ∃ r, t.responses = s.responses ++ [r] ∧ (r.status ≠ .ok → t.acc = s.acc ∧ t.i = s.i) := by
  obtain ⟨r, hans⟩ := answers_of_exec_next h
  exact ⟨hans.requests_eq, hans.pin_eq, hans.op_eq, hans.w_eq, hans.b_eq, hans.m_eq, hans.inProgress_eq,
    r, hans.responses_eq, hans.unchanged_of_error⟩

/-- A request that a host can present has one response, whatever state it is accepted in (R20, R75). -/
theorem handle_answers {q : Request} (hq : q.WellFormed) :
    ∃ r, ∀ (rest : List Request) (s : State), ∃ t, handle q rest s = .next t ∧ Answers r (s.accept q rest) t := by
  cases hd : decode q.cmd with
  | error why =>
    exact ⟨_, fun rest s => ⟨_, handle_of_illegal hd rest s,
      answers_raise (outKindOf (CommandWord.op q.cmd)) .invalidArgument _⟩⟩
  | ok i =>
    obtain ⟨r, hr⟩ := exec_answers (p := q.pin) ((of_decide_eq_true hq).trans (instrInKind_of_decode hd).symm)
    refine ⟨r, fun rest s => ?_⟩
    rw [handle_of_legal hd]
    exact hr _ (accept_pin q rest s)

/-! ### Steps, refusals and frames -/

/-- Settles O15: both steps handle the request, whose response is one and the same in every state. -/
theorem responseDependsOnRequestAlone : Obligations.ResponseDependsOnRequestAlone := by
  intro q rs ts s t hq hs hsq ht htq
  obtain ⟨r, hr⟩ := handle_answers hq
  obtain ⟨s', hs', hanss⟩ := hr rs s
  obtain ⟨t', ht', hanst⟩ := hr ts t
  exact ⟨s', t', r, (step_of_request hs hsq).trans hs', (step_of_request ht htq).trans ht',
    hanss.responses_eq, hanst.responses_eq⟩

/-- Settles O23: the frame of every operation, read for the dense ones. -/
theorem denseOperationFrame : Obligations.DenseOperationFrame := fun _ _ _ _ h => exec_frame h

/-- Settles O24: the frame of every operation, read for the sparse ones. -/
theorem sparseOperationFrame : Obligations.SparseOperationFrame := fun _ _ _ _ h => exec_frame h

/-- Settles O9: an idle block with no request keeps its state. -/
theorem idleBlockGivesNoResponse : Obligations.IdleBlockGivesNoResponse := fun _ => step_of_no_request

/-- Settles O19: each operation refuses a kind other than the one its instruction takes. -/
theorem wrongPayloadKindIsRefused : Obligations.WrongPayloadKindIsRefused := fun _ =>
  ⟨fun h _ => exec_refused_of_kind_ne h, fun h _ _ => exec_refused_of_kind_ne h,
   fun h _ _ => exec_refused_of_kind_ne h, fun h _ _ => exec_refused_of_kind_ne h⟩

/-! ### Reset -/

@[simp] theorem applyReset_eq (s : State) : applyReset s = State.reset := rfl

@[simp] theorem reset_inProgress : State.reset.inProgress = false := rfl

@[simp] theorem reset_requests : State.reset.requests = [] := rfl

@[simp] theorem reset_responses : State.reset.responses = [] := rfl

@[simp] theorem reset_acc : State.reset.acc = 0#Config.accBits := rfl

/-- Settles O11: reset gives `State.reset` from any state, and its fields have the values of R32. -/
theorem resetLeavesBlockIdle : Obligations.ResetLeavesBlockIdle := by
  intro s
  rw [applyReset_eq]
  refine ⟨reset_inProgress, reset_requests, reset_responses, ?_, rfl⟩
  rw [reset_acc, BitVec.toNat_zero]

/-- Settles O12: at reset the block is idle and both lists are empty. -/
theorem resetSatisfiesInvariant : Obligations.ResetSatisfiesInvariant := by
  refine ⟨reset_inProgress, ?_, ?_⟩
  · rw [reset_requests]
    exact List.forall_mem_nil _
  · rw [reset_responses]
    exact List.forall_mem_nil _

end Sys2Proof.Machine

/-! Requests in order (O8, O16): an idle block takes the next request, and each response is the block function of its
request, wherever it stands in the sequence (R51). -/

namespace Sys2Proof.Machine

/-! ### Steps and runs -/

/-- Settles O8: `step` handles the next request, and a legal word is handled by its instruction. -/
theorem stepRunsDecodedRequest : Obligations.StepRunsDecodedRequest := by
  intro q rest i s hidle hreq hdec
  exact ⟨(step_of_request hidle hreq).trans (handle_of_legal hdec rest s), rfl⟩

/-- A request that a host can present has one response, which every idle block whose next request it is gives, and
which is the block function's (R20, R51). -/
theorem step_answers_blockFunction {q : Request} (hq : q.WellFormed) :
    ∃ r, blockFunction q = some r ∧ ∀ (rest : List Request) (s : State), s.inProgress = false →
      s.requests = q :: rest → ∃ t, step s = .next t ∧ Answers r (s.accept q rest) t := by
  obtain ⟨r, hr⟩ := handle_answers hq
  refine ⟨r, ?_, fun rest s hidle hreq => ?_⟩
  · obtain ⟨t, ht, hans⟩ := hr [] { State.reset with requests := [q] }
    have hresp : t.responses = [r] := hans.responses_eq
    rw [blockFunction, step_of_request rfl rfl, ht]
    simp only [hresp, List.head?_cons]
  · rw [step_of_request hidle hreq]
    exact hr rest s

theorem core_run_succ_of_step {s t : State} (h : step s = .next t) (k : Nat) :
    Host.Core.run core (k + 1) s = Host.Core.run core k t := by
  have hcore : core.step s = .next t := h
  simp only [Host.Core.run, hcore]

/-- Settles O16, by induction on the requests: a step answers the first of them and leaves an idle block with the
others to come. -/
theorem responsesFollowRequestOrder : Obligations.ResponsesFollowRequestOrder := by
  intro qs rest
  induction qs with
  | nil =>
    intro s _ hidle hreq
    exact ⟨s, [], rfl, hreq, hidle, (List.append_nil _).symm, rfl⟩
  | cons q qs ih =>
    intro s hwf hidle hreq
    obtain ⟨hq, hqs⟩ := List.forall_mem_cons.1 hwf
    obtain ⟨r, hf, hr⟩ := step_answers_blockFunction hq
    obtain ⟨u, hu, hans⟩ := hr (qs ++ rest) s hidle hreq
    obtain ⟨t, rs, hrun, ht, htidle, hresp, hrs⟩ := ih u hqs hans.inProgress_eq hans.requests_eq
    refine ⟨t, r :: rs, (core_run_succ_of_step hu _).trans hrun, ht, htidle, ?_, ?_⟩
    · rw [hresp, hans.responses_eq, accept_responses, List.append_assoc, List.singleton_append]
    · rw [List.map_cons, List.map_cons, hf, hrs]

end Sys2Proof.Machine

/-! Padding bits (O30, O36, O42): fields below `2^width` stay below the end of the last one, so the bits above it are
written zero (R48); an unpacking loop reads no bit above the last field (R49). -/

namespace Sys2Proof.Machine

/-! ### The value of what `SLICE` writes and `LOAD` reads -/

/-- The bytes of `SLICE(nbytes)` are the low `8 * nbytes` bits of `ACC` (R94). -/
theorem val_slice (nbytes : Nat) (s : State) : val (slice nbytes s) = s.acc.toNat % 2 ^ (8 * nbytes) := by
  induction nbytes with
  | zero => simp [slice, val, Nat.mod_one]
  | succ k ih =>
    have hsucc : slice (k + 1) s = slice k s ++ [BitVec.ofNat 8 ((s.acc.toNat >>> (8 * k)) &&& 0xFF)] := by
      simp only [slice, List.range_succ, List.map_append, List.map_cons, List.map_nil]
    have hbyte : val [BitVec.ofNat 8 ((s.acc.toNat >>> (8 * k)) &&& 0xFF)] = s.acc.toNat / 2 ^ (8 * k) % 2 ^ 8 := by
      have hmask : (s.acc.toNat >>> (8 * k)) &&& 0xFF = s.acc.toNat >>> (8 * k) % 2 ^ 8 :=
        Nat.and_two_pow_sub_one_eq_mod _ 8
      simp only [val, BitVec.toNat_ofNat, hmask, Nat.mod_mod, Nat.mul_zero, Nat.add_zero]
      rw [Nat.shiftRight_eq_div_pow]
    rw [hsucc, val_append, ih, hbyte, slice_length, Nat.mul_add, Nat.pow_add, Nat.mul_one, Nat.mod_mul]

/-- One turn of `LOAD` on an `ACC` that holds the bytes before it adds the next one on top (R95). -/
theorem loadByte_acc {din : List Byte} {k : Nat} {s : State} (hk : k < din.length)
    (hbits : 8 * (k + 1) ≤ Config.accBits) (hs : s.acc.toNat = val (din.take k)) :
    (loadByte din s k).acc.toNat = val (din.take (k + 1)) := by
  have hlen : (din.take k).length = k := List.length_take_of_le hk.le
  have hlow : val (din.take k) < 2 ^ (8 * k) := by
    have := val_lt (din.take k)
    rwa [hlen] at this
  have hsum : val (din.take (k + 1)) = din[k].toNat <<< (8 * k) + val (din.take k) := by
    rw [List.take_add_one, List.getElem?_eq_getElem hk, Option.toList_some, val_append, hlen, Nat.shiftLeft_eq]
    simp only [val]
    ring
  have hfits : val (din.take (k + 1)) < 2 ^ Config.accBits :=
    (val_lt _).trans_le (Nat.pow_le_pow_right Nat.two_pos (by rw [List.length_take_of_le hk]; exact hbits))
  simp only [loadByte, memRead, List.getElem?_eq_getElem hk, setAcc_acc, BitVec.toNat_ofNat, hs]
  rw [Nat.or_comm, ← Nat.shiftLeft_add_eq_or_of_lt hlow, ← hsum, Nat.mod_eq_of_lt hfits]

/-- On a cleared `ACC`, `LOAD(nbytes)` gives the value of the first `nbytes` bytes (R95). -/
theorem load_clear_acc {nbytes : Nat} {din : List Byte} (s : State) (hlen : nbytes ≤ din.length)
    (hbits : 8 * nbytes ≤ Config.accBits) : (load nbytes din (clear s)).acc.toNat = val (din.take nbytes) := by
  induction nbytes with
  | zero => simp [load, val]
  | succ k ih =>
    have hsucc : load (k + 1) din (clear s) = loadByte din (load k din (clear s)) k := by
      simp only [load, List.range_succ, List.foldl_append, List.foldl_cons, List.foldl_nil]
    rw [hsucc]
    exact loadByte_acc hlen hbits (ih (by omega) (by omega))

/-! ### Padding bits written (R48) -/

/-- Fields below `2^width` leave `ACC` below the end of the last one: `PLACE` puts field `i` below
`2^((i + 1) * width)` (R92, R115). -/
theorem placeFields_acc_lt {width : Nat} {fs : List Nat} (hfs : ∀ f ∈ fs, f < 2 ^ width) (i : Nat) {s : State}
    (hs : s.acc.toNat < 2 ^ (i * width)) :
    (placeFields width fs i s).acc.toNat < 2 ^ ((i + fs.length) * width) := by
  induction fs generalizing i s with
  | nil => exact hs
  | cons f fs ih =>
    obtain ⟨hf, hfs⟩ := List.forall_mem_cons.1 hfs
    have hend : (i + 1) * width = width + i * width := by ring
    have hfield : f <<< (i * width) < 2 ^ ((i + 1) * width) := by
      rw [Nat.shiftLeft_eq, hend, Nat.pow_add]
      exact Nat.mul_lt_mul_of_pos_right hf (Nat.two_pow_pos _)
    have hacc : s.acc.toNat < 2 ^ ((i + 1) * width) :=
      hs.trans_le (Nat.pow_le_pow_right Nat.two_pos (by omega))
    have hplace : (place f (i * width) (s.setI i)).acc.toNat < 2 ^ ((i + 1) * width) := by
      rw [place_acc, setI_acc]
      exact (Nat.mod_le _ _).trans_lt (Nat.or_lt_two_pow hacc hfield)
    have hindex : i + (f :: fs).length = i + 1 + fs.length := by rw [List.length_cons]; omega
    rw [hindex]
    exact ih hfs (i + 1) hplace

/-- What is sliced after packing fields below `2^width` is zero at and above the end of the last field. -/
theorem testBit_val_slice_placeFields {width : Nat} {fs : List Nat} (hfs : ∀ f ∈ fs, f < 2 ^ width) (nbytes : Nat)
    (s : State) {p : Nat} (hp : fs.length * width ≤ p) :
    (val (slice nbytes (placeFields width fs 0 (clear s)))).testBit p = false := by
  have hclear : (clear s).acc.toNat < 2 ^ (0 * width) := by simp
  have hacc := placeFields_acc_lt hfs 0 hclear
  rw [Nat.zero_add] at hacc
  apply Nat.testBit_lt_two_pow
  calc val (slice nbytes (placeFields width fs 0 (clear s)))
      ≤ (placeFields width fs 0 (clear s)).acc.toNat := val_slice nbytes _ ▸ Nat.mod_le _ _
    _ < 2 ^ (fs.length * width) := hacc
    _ ≤ 2 ^ p := Nat.pow_le_pow_right Nat.two_pos hp

/-- An operation that added an error response did not add an `OK` one. -/
theorem responses_ne_ok_of_error {s t : State} {e : ErrorKind} {out out' : OutPayload}
    (he : t.responses = s.responses ++ [⟨.error e, out'⟩]) : t.responses ≠ s.responses ++ [⟨.ok, out⟩] := by
  rw [he]
  simp

/-- `DPACK` answers an error, or its checks pass and it packs. -/
theorem dpackRegisters_error_or_packs (binbits : Nat) (regs : List RegElem) (s : State) :
    (∃ e, (dpackRegisters binbits regs s).responses = s.responses ++ [⟨.error e, .bytes []⟩]) ∨
    dpackRegisters binbits regs s =
      packRegisters binbits regs ((s.setN regs.length).setTotalBits (regs.length * binbits)) := by
  by_cases hw : binbits < 1 ∨ 64 < binbits
  · exact .inl ⟨_, congrArg State.responses (dpackRegisters_of_width _ _ _ hw)⟩
  by_cases hc : 2 ^ 20 < regs.length * binbits
  · exact .inl ⟨_, congrArg State.responses (dpackRegisters_of_ceiling _ _ hw hc)⟩
  cases he : regs.any (elementBad binbits) with
  | true => exact .inl ⟨_, congrArg State.responses (dpackRegisters_of_element _ _ hw hc he)⟩
  | false => exact .inr (dpackRegisters_of_legal _ _ hw hc he)

/-- `SCOMPRESS` answers an error, or its checks pass and it packs. -/
theorem scompressEntries_error_or_packs (b rbits : Nat) (es : List Entry) (s : State) :
    (∃ e, (scompressEntries b rbits es s).responses = s.responses ++ [⟨.error e, .bytes []⟩]) ∨
    scompressEntries b rbits es s =
      packEntries b rbits es ((s.setN es.length).setTotalBits (es.length * (b + rbits))) := by
  by_cases hw : 64 < b ∨ 64 < rbits ∨ b + rbits = 0
  · exact .inl ⟨_, congrArg State.responses (scompressEntries_of_width _ _ hw)⟩
  by_cases hc : 2 ^ 20 < es.length * (b + rbits)
  · exact .inl ⟨_, congrArg State.responses (scompressEntries_of_ceiling _ _ hw hc)⟩
  · exact .inr (scompressEntries_of_legal _ _ hw hc)

theorem packRegisters_responses (binbits : Nat) (regs : List RegElem) (s : State) :
    (packRegisters binbits regs s).responses = s.responses ++
      [⟨.ok, .bytes (slice (bytesFor (regs.length * binbits))
        (placeFields binbits (regs.map (denseField binbits)) 0 (clear s)))⟩] := by
  rw [packRegisters_eq]
  rfl

theorem packEntries_responses (b rbits : Nat) (es : List Entry) (s : State) :
    (packEntries b rbits es s).responses = s.responses ++
      [⟨.ok, .bytes (slice (bytesFor (es.length * (b + rbits)))
        (placeFields (b + rbits) (es.map (sparseField rbits)) 0 (clear s)))⟩] := by
  rw [packEntries_eq]
  rfl

/-- The bytes of an `OK` answer of `DPACK` are those it slices after packing (R115). -/
theorem dpackRegisters_ok_bytes {binbits : Nat} {regs : List RegElem} {D : List Byte} {s : State}
    (h : (dpackRegisters binbits regs s).responses = s.responses ++ [⟨.ok, .bytes D⟩]) :
    D = slice (bytesFor (regs.length * binbits))
      (placeFields binbits (regs.map (denseField binbits)) 0 (clear s)) := by
  obtain ⟨e, he⟩ | hpack := dpackRegisters_error_or_packs binbits regs s
  · exact absurd h (responses_ne_ok_of_error he)
  · rw [hpack, packRegisters_responses, slice_placeFields_clear _ _ _ _ s] at h
    simpa using h.symm

/-- The bytes of an `OK` answer of `SCOMPRESS` are those it slices after packing (R135). -/
theorem scompressEntries_ok_bytes {b rbits : Nat} {es : List Entry} {D : List Byte} {s : State}
    (h : (scompressEntries b rbits es s).responses = s.responses ++ [⟨.ok, .bytes D⟩]) :
    D = slice (bytesFor (es.length * (b + rbits)))
      (placeFields (b + rbits) (es.map (sparseField rbits)) 0 (clear s)) := by
  obtain ⟨e, he⟩ | hpack := scompressEntries_error_or_packs b rbits es s
  · exact absurd h (responses_ne_ok_of_error he)
  · rw [hpack, packEntries_responses, slice_placeFields_clear _ _ _ _ s] at h
    simpa using h.symm

theorem denseField_lt (binbits : Nat) (x : RegElem) : denseField binbits x < 2 ^ binbits := by
  rw [denseField, and_mask]
  exact Nat.mod_lt _ (Nat.two_pow_pos _)

/-- The composite field fits its slot when the index does: `rho` is masked (R130, R137). -/
theorem sparseField_lt {b : Nat} (rbits : Nat) {e : Entry} (h : e.index.toNat < 2 ^ b) :
    sparseField rbits e < 2 ^ (b + rbits) := by
  have hindex : e.index.toNat <<< rbits < 2 ^ (b + rbits) := by
    rw [Nat.shiftLeft_eq, Nat.pow_add]
    exact Nat.mul_lt_mul_of_pos_right h (Nat.two_pow_pos _)
  have hrho : e.rho.toNat &&& mask rbits < 2 ^ (b + rbits) := by
    rw [and_mask]
    exact (Nat.mod_lt _ (Nat.two_pow_pos _)).trans_le (Nat.pow_le_pow_right Nat.two_pos (Nat.le_add_left _ _))
  exact Nat.or_lt_two_pow hindex hrho

/-- Settles O30: `DPACK` places masked fields, so nothing lies above the last one. -/
theorem dpackPaddingIsZero : Obligations.DpackPaddingIsZero := by
  intro binbits regs D s t hpin hexec hresp p hp
  rw [execDpack_of_elements hpin] at hexec
  cases hexec
  rw [dpackRegisters_ok_bytes hresp]
  exact testBit_val_slice_placeFields (List.forall_mem_map.2 fun x _ => denseField_lt binbits x) _ s
    (by rwa [List.length_map])

/-- Settles O42: with every index below `2^b` the composite fields fit their slots, so nothing lies above the last
one. -/
theorem scompressPaddingIsZeroInRange : Obligations.ScompressPaddingIsZeroInRange := by
  intro b rbits entries D s t hpin hindex hexec hresp p hp
  rw [execScompress_of_entries hpin] at hexec
  cases hexec
  rw [scompressEntries_ok_bytes hresp]
  exact testBit_val_slice_placeFields (List.forall_mem_map.2 fun e he => sparseField_lt rbits (hindex e he)) _ s
    (by rwa [List.length_map])

/-! ### Padding bits read (R49) -/

/-- A field that ends at or below bit `t` is read from the bits below `t`. -/
theorem mod_two_pow_shiftRight_mod {o w t : Nat} (x : Nat) (h : o + w ≤ t) :
    (x % 2 ^ t) >>> o % 2 ^ w = x >>> o % 2 ^ w := by
  apply Nat.eq_of_testBit_eq
  intro j
  simp only [Nat.testBit_mod_two_pow, Nat.testBit_shiftRight]
  by_cases hj : j < w
  · have : o + j < t := by omega
    simp [this]
  · simp [hj]

/-- The bytes needed for `t` bits hold them all. -/
theorem le_mul_bytesFor (t : Nat) : t ≤ 8 * bytesFor t := by
  unfold bytesFor
  omega

/-- Bytes beyond the first `k` do not change the value below bit `8 * k` (R40). -/
theorem val_take_mod {data : List Byte} {k t : Nat} (hk : k ≤ data.length) (ht : t ≤ 8 * k) :
    val (data.take k) % 2 ^ t = val data % 2 ^ t := by
  have hdvd : 2 ^ t ∣ 2 ^ (8 * k) * val (data.drop k) := (pow_dvd_pow 2 ht).mul_right _
  have hval : val data = val (data.take k) + 2 ^ (8 * k) * val (data.drop k) := by
    conv_lhs => rw [← List.take_append_drop k data, val_append, List.length_take_of_le hk]
  rw [hval, Nat.add_mod, Nat.mod_eq_zero_of_dvd hdvd, Nat.add_zero, Nat.mod_mod]

/-- What the unpacking loop of `DUNPACK` extracts: fields of the data's bits below `count * width` (R121, R122). -/
theorem extractFields_load_bytesFor {count width : Nat} {data : List Byte} (s : State)
    (hbits : count * width ≤ 2 ^ 20) (hlen : bytesFor (count * width) ≤ data.length) :
    extractFields width count (load (bytesFor (count * width)) data (clear s)) =
      (List.range count).map fun i => (val data % 2 ^ (count * width)) >>> (i * width) % 2 ^ width := by
  have hacc : 8 * bytesFor (count * width) ≤ Config.accBits := by
    unfold bytesFor Config.accBits
    omega
  refine List.map_congr_left fun i hi => ?_
  have hfield : i * width + width ≤ count * width := by
    rw [← Nat.succ_mul]
    exact Nat.mul_le_mul_right width (List.mem_range.1 hi)
  rw [extract, and_mask, load_clear_acc s hlen hacc, ← mod_two_pow_shiftRight_mod _ hfield,
    val_take_mod hlen (le_mul_bytesFor _)]

theorem unpackRegisters_responses (count binbits : Nat) (data : List Byte) (s : State) :
    (unpackRegisters count binbits data s).responses = s.responses ++
      [⟨.ok, .values ((extractFields binbits count
        (load (bytesFor (count * binbits)) data (clear s))).map denseValue)⟩] := by
  rw [unpackRegisters_eq]
  rfl

/-- The answer of `DUNPACK` on legal arguments and enough data (R121). -/
theorem dunpackData_ok_responses {count binbits : Nat} {data : List Byte} (s : State) (hlow : 1 ≤ binbits)
    (hhigh : binbits ≤ 64) (hbits : count * binbits ≤ 2 ^ 20) (hlen : bytesFor (count * binbits) ≤ data.length) :
    (dunpackData count binbits data s).responses = s.responses ++
      [⟨.ok, .values (((List.range count).map fun i =>
        (val data % 2 ^ (count * binbits)) >>> (i * binbits) % 2 ^ binbits).map denseValue)⟩] := by
  have hlegal := dunpackData_of_legal (m := count) (binbits := binbits) data s (by omega) (by omega)
    (Nat.not_lt.2 hbits) (Nat.not_lt.2 hlen)
  rw [hlegal, Int.toNat_natCast, unpackRegisters_responses, extractFields_load_bytesFor _ hbits hlen]
  rfl

/-- Settles O36: the values are read from the bits below `count * binbits`, on which the two data agree. -/
theorem dunpackIgnoresPadding : Obligations.DunpackIgnoresPadding := by
  intro count binbits data data' s s' hpin hpin' hlow hhigh hbits hlen hlen' hagree
  refine ⟨_, _, _, execDunpack_of_bytes hpin _ _, execDunpack_of_bytes hpin' _ _,
    dunpackData_ok_responses s hlow hhigh hbits hlen, ?_⟩
  rw [hagree]
  exact dunpackData_ok_responses s' hlow hhigh hbits hlen'

end Sys2Proof.Machine

/-! The command word as its six fields (O1 to O6): decoding and encoding are inverse, the masks of the opcode map keep
exactly the must-be-zero fields and `OP`, and the scalars are fields of the word as numbers (R61 to R63). -/

namespace Sys2Proof

/-! ### Legal words -/

theorem illegalField_eq_none_iff (c : Command) :
    illegalField c = none ↔
      CommandWord.rsv0 c = 0#6 ∧ CommandWord.rsv1 c = 0#8 ∧
      (CommandWord.op c = 0#2 ∨ CommandWord.op c = 1#2 → CommandWord.b c = 0#8) ∧
      (CommandWord.op c ≠ 1#2 → CommandWord.m c = 0#32) := by
  simp only [illegalField, ite_eq_iff, reduceCtorEq, and_false, false_or, and_true, ne_eq, not_not, not_and]

theorem decode_eq_ok_iff {c : Command} {i : Instr} :
    decode c = .ok i ↔ illegalField c = none ∧
      i = selectOperation (CommandWord.op c) (CommandWord.w c) (CommandWord.b c) (CommandWord.m c) := by
  unfold decode
  cases illegalField c <;> simp [eq_comm]

theorem decode_eq_error_iff {c : Command} {why : IllegalWord} :
    decode c = .error why ↔ illegalField c = some why := by
  unfold decode
  cases illegalField c <;> simp

/-! ### Scalars that fit their fields -/

theorem fitsWidthField_iff (v : Nat) : fitsWidthField v = true ↔ v < 256 := by simp [fitsWidthField]

theorem fitsCountField_iff (m : Int) : fitsCountField m = true ↔ -2147483648 ≤ m ∧ m < 2147483648 := by
  simp [fitsCountField]

@[simp] theorem fitsWidthField_toNat (x : BitVec 8) : fitsWidthField x.toNat = true :=
  (fitsWidthField_iff _).2 x.isLt

@[simp] theorem fitsCountField_toInt (x : BitVec 32) : fitsCountField x.toInt = true :=
  (fitsCountField_iff _).2 ⟨x.le_toInt, x.toInt_lt⟩

theorem toNat_ofNat_of_fits {v : Nat} (h : fitsWidthField v = true) : (BitVec.ofNat 8 v).toNat = v :=
  BitVec.toNat_ofNat .. ▸ Nat.mod_eq_of_lt ((fitsWidthField_iff v).1 h)

theorem toInt_ofInt_of_fits {m : Int} (h : fitsCountField m = true) : (BitVec.ofInt 32 m).toInt = m :=
  have ⟨hlow, hhigh⟩ := (fitsCountField_iff m).1 h
  BitVec.toInt_ofInt_eq_self (by decide) hlow hhigh

theorem wellFormed_selectOperation (op : BitVec 2) (w b : BitVec 8) (m : BitVec 32) :
    (selectOperation op w b m).WellFormed := by
  unfold selectOperation Instr.WellFormed
  split_ifs <;> simp [Instr.wellFormed]

/-! ### `decode` after `encode` -/

/-- The word of a well-formed instruction is legal (R62, R75). -/
theorem illegalField_encode {i : Instr} (h : i.WellFormed) : illegalField (encode i) = none :=
  match i with
  | .dpack binbits => Laws.EncodesLegally.dpack binbits h
  | .dunpack m binbits => Laws.EncodesLegally.dunpack m binbits h
  | .scompress b rbits => Laws.EncodesLegally.scompress b rbits h
  | .sdecompress b rbits => Laws.EncodesLegally.sdecompress b rbits h

/-- `OP` selects the operation, and a scalar that fits its field is read back from it (R62, R63). -/
theorem selectOperation_encode {i : Instr} (h : i.WellFormed) :
    selectOperation (CommandWord.op (encode i)) (CommandWord.w (encode i)) (CommandWord.b (encode i))
      (CommandWord.m (encode i)) = i := by
  cases i with
  | dpack binbits => simp [encode, selectOperation, toNat_ofNat_of_fits h]
  | dunpack m binbits =>
    obtain ⟨hm, hw⟩ := Bool.and_eq_true_iff.1 h
    simp [encode, selectOperation, toInt_ofInt_of_fits hm, toNat_ofNat_of_fits hw]
  | scompress b rbits =>
    obtain ⟨hb, hr⟩ := Bool.and_eq_true_iff.1 h
    simp [encode, selectOperation, toNat_ofNat_of_fits hb, toNat_ofNat_of_fits hr]
  | sdecompress b rbits =>
    obtain ⟨hb, hr⟩ := Bool.and_eq_true_iff.1 h
    simp [encode, selectOperation, toNat_ofNat_of_fits hb, toNat_ofNat_of_fits hr]

/-- Settles O1: the encoded word is legal, and its fields select the instruction. -/
theorem decodeEncodeRoundTrip : Obligations.DecodeEncodeRoundTrip := fun _ h =>
  decode_eq_ok_iff.2 ⟨illegalField_encode h, (selectOperation_encode h).symm⟩

/-! ### `encode` after `decode` -/

/-- The six fields make up the word (R61). -/
theorem eq_of_fields {c d : Command} (hop : CommandWord.op c = CommandWord.op d)
    (hrsv0 : CommandWord.rsv0 c = CommandWord.rsv0 d) (hw : CommandWord.w c = CommandWord.w d)
    (hb : CommandWord.b c = CommandWord.b d) (hrsv1 : CommandWord.rsv1 c = CommandWord.rsv1 d)
    (hm : CommandWord.m c = CommandWord.m d) : c = d := by
  apply BitVec.eq_of_toNat_eq
  have := congrArg BitVec.toNat hop
  have := congrArg BitVec.toNat hrsv0
  have := congrArg BitVec.toNat hw
  have := congrArg BitVec.toNat hb
  have := congrArg BitVec.toNat hrsv1
  have := congrArg BitVec.toNat hm
  simp only [CommandWord.op, CommandWord.rsv0, CommandWord.w, CommandWord.b, CommandWord.rsv1, CommandWord.m,
    BitVec.extractLsb'_toNat, Nat.shiftRight_eq_div_pow] at *
  omega

/-- A word with zero in `RSV0` and `RSV1` is assembled from its fields (R61). -/
theorem assemble_fields {c : Command} (hrsv0 : CommandWord.rsv0 c = 0#6) (hrsv1 : CommandWord.rsv1 c = 0#8) :
    CommandWord.assemble (CommandWord.m c) (CommandWord.b c) (CommandWord.w c) (CommandWord.op c) = c := by
  apply eq_of_fields <;> simp [hrsv0, hrsv1]

theorem op_cases : ∀ op : BitVec 2, op = 0#2 ∨ op = 1#2 ∨ op = 2#2 ∨ op = 3#2 := by decide

/-- The encoder puts back the fields an operation is selected by, and zero where they must be zero (R62). -/
theorem encode_selectOperation {op : BitVec 2} {b : BitVec 8} {m : BitVec 32} (w : BitVec 8)
    (hb : op = 0#2 ∨ op = 1#2 → b = 0#8) (hm : op ≠ 1#2 → m = 0#32) :
    encode (selectOperation op w b m) = CommandWord.assemble m b w op := by
  obtain rfl | rfl | rfl | rfl := op_cases op
  · simp [selectOperation, encode, hb, hm]
  · simp [selectOperation, encode, hb]
  · simp [selectOperation, encode, hm]
  · simp [selectOperation, encode, hm]

/-- Settles O2: the scalars are fields of the word, and the encoder puts them back where the word has them. -/
theorem decodedWordIsItsEncoding : Obligations.DecodedWordIsItsEncoding := by
  intro c i h
  obtain ⟨hlegal, rfl⟩ := decode_eq_ok_iff.1 h
  obtain ⟨hrsv0, hrsv1, hb, hm⟩ := (illegalField_eq_none_iff c).1 hlegal
  exact ⟨wellFormed_selectOperation .., (encode_selectOperation _ hb hm).trans (assemble_fields hrsv0 hrsv1)⟩

/-! ### The opcode map -/

/-- A word matches a pattern under a mask when each of its fields does. -/
theorem and_eq_iff_fields (c mask pattern : Command) :
    c &&& mask = pattern ↔
      CommandWord.op c &&& CommandWord.op mask = CommandWord.op pattern ∧
      CommandWord.rsv0 c &&& CommandWord.rsv0 mask = CommandWord.rsv0 pattern ∧
      CommandWord.w c &&& CommandWord.w mask = CommandWord.w pattern ∧
      CommandWord.b c &&& CommandWord.b mask = CommandWord.b pattern ∧
      CommandWord.rsv1 c &&& CommandWord.rsv1 mask = CommandWord.rsv1 pattern ∧
      CommandWord.m c &&& CommandWord.m mask = CommandWord.m pattern := by
  simp only [CommandWord.op, CommandWord.rsv0, CommandWord.w, CommandWord.b, CommandWord.rsv1, CommandWord.m,
    ← BitVec.extractLsb'_and]
  refine ⟨?_, fun ⟨hop, hrsv0, hw, hb, hrsv1, hm⟩ => eq_of_fields hop hrsv0 hw hb hrsv1 hm⟩
  rintro rfl
  simp only [and_self]

/-- A mask keeps `OP`, `RSV0` and `RSV1`, and `B` and `M` where they must be zero for the row's `OP` (R62). -/
theorem mask_fields : ∀ row ∈ opcodeTable,
    CommandWord.op row.mask = BitVec.allOnes 2 ∧ CommandWord.rsv0 row.mask = BitVec.allOnes 6 ∧
    CommandWord.w row.mask = 0#8 ∧ CommandWord.rsv1 row.mask = BitVec.allOnes 8 ∧
    CommandWord.b row.mask =
      (if CommandWord.op row.pattern = 0#2 ∨ CommandWord.op row.pattern = 1#2 then BitVec.allOnes 8 else 0#8) ∧
    CommandWord.m row.mask = (if CommandWord.op row.pattern ≠ 1#2 then BitVec.allOnes 32 else 0#32) := by decide

/-- A pattern is zero but for `OP` (R62). -/
theorem pattern_fields : ∀ row ∈ opcodeTable,
    CommandWord.rsv0 row.pattern = 0#6 ∧ CommandWord.w row.pattern = 0#8 ∧ CommandWord.b row.pattern = 0#8 ∧
    CommandWord.rsv1 row.pattern = 0#8 ∧ CommandWord.m row.pattern = 0#32 := by decide

/-- Under a mask that keeps a field whole if `p` holds and drops it otherwise, it is zero when `p` makes it so. -/
theorem and_allOnes_if_eq_zero_iff {k : Nat} (x : BitVec k) (p : Prop) [Decidable p] :
    x &&& (if p then BitVec.allOnes k else 0#k) = 0#k ↔ (p → x = 0#k) := by
  by_cases hp : p <;> simp [hp]

/-- A word matches a row of the opcode map when its `OP` is the row's and it is legal (R62, R75). -/
theorem and_mask_eq_pattern_iff (c : Command) {row : OpcodeRow} (hrow : row ∈ opcodeTable) :
    c &&& row.mask = row.pattern ↔ CommandWord.op c = CommandWord.op row.pattern ∧ illegalField c = none := by
  obtain ⟨hop, hrsv0, hw, hrsv1, hb, hm⟩ := mask_fields row hrow
  obtain ⟨hprsv0, hpw, hpb, hprsv1, hpm⟩ := pattern_fields row hrow
  rw [and_eq_iff_fields, hop, hrsv0, hw, hrsv1, hb, hm, hprsv0, hpw, hpb, hprsv1, hpm, and_allOnes_if_eq_zero_iff,
    and_allOnes_if_eq_zero_iff, BitVec.and_allOnes, BitVec.and_allOnes, BitVec.and_allOnes, BitVec.and_zero,
    illegalField_eq_none_iff]
  refine and_congr_right fun hc => ?_
  rw [hc]
  tauto

/-- Every operation has its row. -/
theorem exists_row_of_op : ∀ op : BitVec 2, ∃ row ∈ opcodeTable, CommandWord.op row.pattern = op := by decide

theorem row_eq_of_op_eq : ∀ row ∈ opcodeTable, ∀ row' ∈ opcodeTable,
    CommandWord.op row.pattern = CommandWord.op row'.pattern → row = row' := by decide

theorem mnemonic_selectOperation (w b : BitVec 8) (m : BitVec 32) : ∀ row ∈ opcodeTable,
    (selectOperation (CommandWord.op row.pattern) w b m).mnemonic = row.mnemonic := by
  simp only [opcodeTable, List.forall_mem_cons, List.not_mem_nil, false_implies, implies_true, and_true]
  exact ⟨rfl, rfl, rfl, rfl⟩

/-- Settles O3: a row matches the legal words of its `OP`, and no two rows have one `OP`. -/
theorem decodeFollowsOpcodeTable : Obligations.DecodeFollowsOpcodeTable := by
  refine ⟨fun c i h => ?_, fun c row hrow hmatch => ?_, fun c row hrow row' hrow' hmatch hmatch' => ?_⟩
  · obtain ⟨hlegal, rfl⟩ := decode_eq_ok_iff.1 h
    obtain ⟨row, hrow, hop⟩ := exists_row_of_op (CommandWord.op c)
    exact ⟨row, hrow, hop ▸ (mnemonic_selectOperation _ _ _ row hrow).symm,
      (and_mask_eq_pattern_iff c hrow).2 ⟨hop.symm, hlegal⟩⟩
  · obtain ⟨hop, hlegal⟩ := (and_mask_eq_pattern_iff c hrow).1 hmatch
    exact ⟨_, decode_eq_ok_iff.2 ⟨hlegal, rfl⟩, hop ▸ mnemonic_selectOperation _ _ _ row hrow⟩
  · obtain ⟨hop, -⟩ := (and_mask_eq_pattern_iff c hrow).1 hmatch
    obtain ⟨hop', -⟩ := (and_mask_eq_pattern_iff c hrow').1 hmatch'
    exact row_eq_of_op_eq row hrow row' hrow' (hop.symm.trans hop')

/-! ### The scalars as fields of the word -/

theorem op_toNat (c : Command) : (CommandWord.op c).toNat = c.toNat % 4 := by
  rw [CommandWord.op, BitVec.extractLsb'_toNat, Nat.shiftRight_zero]

theorem w_toNat (c : Command) : (CommandWord.w c).toNat = c.toNat / 2 ^ 8 % 2 ^ 8 := by
  rw [CommandWord.w, BitVec.extractLsb'_toNat, Nat.shiftRight_eq_div_pow]

theorem b_toNat (c : Command) : (CommandWord.b c).toNat = c.toNat / 2 ^ 16 % 2 ^ 8 := by
  rw [CommandWord.b, BitVec.extractLsb'_toNat, Nat.shiftRight_eq_div_pow]

theorem m_toNat (c : Command) : (CommandWord.m c).toNat = c.toNat / 2 ^ 32 := by
  rw [CommandWord.m, BitVec.extractLsb'_toNat, Nat.shiftRight_eq_div_pow]
  omega

/-- `M` is sign-extended: two's complement (R63). -/
theorem m_toInt (c : Command) : (CommandWord.m c).toInt =
    if c.toNat / 2 ^ 32 < 2 ^ 31 then ((c.toNat / 2 ^ 32 : Nat) : Int)
    else ((c.toNat / 2 ^ 32 : Nat) : Int) - 4294967296 := by
  rw [BitVec.toInt_eq_toNat_cond, m_toNat]
  split_ifs <;> omega

/-- Settles O4: `OP` is the word modulo 4, and selects the operation whose scalars are the fields as numbers. -/
theorem scalarsAreFieldsOfTheWord : Obligations.ScalarsAreFieldsOfTheWord := by
  intro c i h
  obtain ⟨-, rfl⟩ := decode_eq_ok_iff.1 h
  rw [selectOperation, w_toNat, b_toNat, m_toInt]
  have hop {k : BitVec 2} : c.toNat % 4 = k.toNat → CommandWord.op c = k := fun hk =>
    BitVec.eq_of_toNat_eq ((op_toNat c).trans hk)
  refine ⟨fun hv => ?_, fun hv => ?_, fun hv => ?_, fun hv => ?_⟩
  · rw [hop (k := 0#2) hv]; rfl
  · rw [hop (k := 1#2) hv]; rfl
  · rw [hop (k := 2#2) hv]; rfl
  · rw [hop (k := 3#2) hv]; rfl

/-! ### Example words and the assembler's default -/

/-- Settles O5: the words of R78 are closed, so the decoder runs on each. -/
theorem exampleWordsDecode : Obligations.ExampleWordsDecode := by
  unfold Obligations.ExampleWordsDecode
  decide

/-- Settles O6: the short forms are the full forms at `rbits = 6`, which the encoder puts into `W`. -/
theorem assemblerSuppliesRbitsSix : Obligations.AssemblerSuppliesRbitsSix := fun _ =>
  ⟨rfl, rfl, CommandWord.w_assemble .., CommandWord.w_assemble ..⟩

end Sys2Proof

/-! The invariant (O13): every operation gives a response of the form of R66, within the size bounds of R116 and R147,
so a step keeps it. -/

namespace Sys2Proof.Machine

/-! ### Responses of the form of R66 -/

theorem wellFormed_error (e : ErrorKind) (k : OutKind) : Response.WellFormed ⟨.error e, .empty k⟩ := by
  refine ⟨fun _ => empty_length k, ?_⟩
  cases k <;> exact Nat.zero_le _

theorem wellFormed_ok_bytes {l : List Byte} (h : l.length ≤ 2 ^ 17) : Response.WellFormed ⟨.ok, .bytes l⟩ :=
  ⟨fun hok => absurd rfl hok, h⟩

theorem wellFormed_ok_values {l : List RegValue} (h : l.length ≤ 2 ^ 20) : Response.WellFormed ⟨.ok, .values l⟩ :=
  ⟨fun hok => absurd rfl hok, h⟩

theorem wellFormed_ok_entries {l : List Entry} (h : l.length ≤ 2 ^ 20) : Response.WellFormed ⟨.ok, .entries l⟩ :=
  ⟨fun hok => absurd rfl hok, h⟩

/-- A total within the ceiling fills at most `2^17` bytes (R116). -/
theorem bytesFor_le_of_le_ceiling {t : Nat} (h : t ≤ 2 ^ 20) : bytesFor t ≤ 2 ^ 17 := by
  unfold bytesFor
  omega

/-- The responses `rs'` are `rs` and one more, of the form of R66. -/
def ExtendsWellFormed (rs rs' : List Response) : Prop := ∃ r : Response, r.WellFormed ∧ rs' = rs ++ [r]

theorem raise_extendsWellFormed (k : OutKind) (e : ErrorKind) (s : State) :
    ExtendsWellFormed s.responses (s.raise k e).responses :=
  ⟨_, wellFormed_error e k, rfl⟩

/-! ### The four operations: an error, or output within the ceiling -/

theorem dpackRegisters_extendsWellFormed (binbits : Nat) (regs : List RegElem) (s : State) :
    ExtendsWellFormed s.responses (dpackRegisters binbits regs s).responses := by
  by_cases hw : binbits < 1 ∨ 64 < binbits
  · rw [dpackRegisters_of_width _ _ _ hw]
    exact raise_extendsWellFormed ..
  by_cases hc : 2 ^ 20 < regs.length * binbits
  · rw [dpackRegisters_of_ceiling _ _ hw hc]
    exact raise_extendsWellFormed ..
  cases he : regs.any (elementBad binbits) with
  | true =>
    rw [dpackRegisters_of_element _ _ hw hc he]
    exact raise_extendsWellFormed ..
  | false =>
    rw [dpackRegisters_of_legal _ _ hw hc he, packRegisters_responses]
    refine ⟨_, wellFormed_ok_bytes ?_, rfl⟩
    rw [slice_length]
    exact bytesFor_le_of_le_ceiling (Nat.not_lt.1 hc)

theorem dunpackData_extendsWellFormed (m : Int) (binbits : Nat) (data : List Byte) (s : State) :
    ExtendsWellFormed s.responses (dunpackData m binbits data s).responses := by
  by_cases ha : binbits < 1 ∨ 64 < binbits ∨ m < 0
  · rw [dunpackData_of_arguments _ _ _ _ ha]
    exact raise_extendsWellFormed ..
  obtain ⟨hw, hm⟩ : ¬ (binbits < 1 ∨ 64 < binbits) ∧ ¬ m < 0 := by omega
  by_cases hc : 2 ^ 20 < m.toNat * binbits
  · rw [dunpackData_of_ceiling _ _ hw hm hc]
    exact raise_extendsWellFormed ..
  by_cases hd : data.length < bytesFor (m.toNat * binbits)
  · rw [dunpackData_of_short _ _ hw hm hc hd]
    exact raise_extendsWellFormed ..
  · rw [dunpackData_of_legal _ _ hw hm hc hd, unpackRegisters_responses]
    refine ⟨_, wellFormed_ok_values ?_, rfl⟩
    rw [List.length_map, extractFields_length]
    exact (Nat.le_mul_of_pos_right _ (by omega)).trans (Nat.not_lt.1 hc)

theorem scompressEntries_extendsWellFormed (b rbits : Nat) (es : List Entry) (s : State) :
    ExtendsWellFormed s.responses (scompressEntries b rbits es s).responses := by
  by_cases hw : 64 < b ∨ 64 < rbits ∨ b + rbits = 0
  · rw [scompressEntries_of_width _ _ hw]
    exact raise_extendsWellFormed ..
  by_cases hc : 2 ^ 20 < es.length * (b + rbits)
  · rw [scompressEntries_of_ceiling _ _ hw hc]
    exact raise_extendsWellFormed ..
  · rw [scompressEntries_of_legal _ _ hw hc, packEntries_responses]
    refine ⟨_, wellFormed_ok_bytes ?_, rfl⟩
    rw [slice_length]
    exact bytesFor_le_of_le_ceiling (Nat.not_lt.1 hc)

theorem unpackEntries_responses (b rbits : Nat) (data : List Byte) (s : State) :
    (unpackEntries b rbits data s).responses = s.responses ++
      [⟨.ok, .entries ((extractFields (b + rbits) (entryCount data.length (b + rbits))
        (load data.length data (clear s))).map (sparseEntry rbits))⟩] := by
  rw [unpackEntries_eq]
  rfl

theorem sdecompressData_extendsWellFormed (b rbits : Nat) (data : List Byte) (s : State) :
    ExtendsWellFormed s.responses (sdecompressData b rbits data s).responses := by
  by_cases hw : 64 < b ∨ 64 < rbits ∨ b + rbits = 0
  · rw [sdecompressData_of_width _ _ hw]
    exact raise_extendsWellFormed ..
  by_cases hc : 2 ^ 20 < 8 * data.length
  · rw [sdecompressData_of_ceiling _ _ hw hc]
    exact raise_extendsWellFormed ..
  · rw [sdecompressData_of_legal _ _ hw hc, unpackEntries_responses]
    refine ⟨_, wellFormed_ok_entries ?_, rfl⟩
    rw [List.length_map, extractFields_length, entryCount, Nat.mul_comm]
    exact (Nat.div_le_self ..).trans (Nat.not_lt.1 hc)

/-! ### Every instruction and every request -/

theorem exec_extendsWellFormed {i : Instr} {s t : State} (h : exec i s = .next t) :
    ExtendsWellFormed s.responses t.responses := by
  cases i with
  | dpack binbits =>
    obtain ⟨regs, -, rfl⟩ := execDpack_next h
    exact dpackRegisters_extendsWellFormed ..
  | dunpack m binbits =>
    obtain ⟨data, -, rfl⟩ := execDunpack_next h
    exact dunpackData_extendsWellFormed ..
  | scompress b rbits =>
    obtain ⟨es, -, rfl⟩ := execScompress_next h
    exact scompressEntries_extendsWellFormed ..
  | sdecompress b rbits =>
    obtain ⟨data, -, rfl⟩ := execSdecompress_next h
    exact sdecompressData_extendsWellFormed ..

/-- A handled request is over, the others are still to come, and one response more was given (R27, R66). -/
theorem handle_next {q : Request} {rest : List Request} {s t : State} (h : handle q rest s = .next t) :
    t.inProgress = false ∧ t.requests = rest ∧ ExtendsWellFormed s.responses t.responses := by
  cases hd : decode q.cmd with
  | error why =>
    rw [handle_of_illegal hd] at h
    cases h
    exact ⟨rfl, rfl, raise_extendsWellFormed ..⟩
  | ok i =>
    rw [handle_of_legal hd] at h
    obtain ⟨r, hans⟩ := answers_of_exec_next h
    have hresp := exec_extendsWellFormed h
    rw [accept_responses] at hresp
    exact ⟨hans.inProgress_eq, hans.requests_eq, hresp⟩

/-- Settles O13: with no request the state stays; a handled request leaves the block idle, the others to come, and one
well-formed response more. -/
theorem stepKeepsInvariant : Obligations.StepKeepsInvariant := by
  intro s t hinv hstep
  have ⟨hidle, hpresentable, hgiven⟩ := hinv
  cases hr : s.requests with
  | nil =>
    rw [step_of_no_request hidle hr] at hstep
    cases hstep
    exact hinv
  | cons q rest =>
    rw [step_of_request hidle hr] at hstep
    obtain ⟨htidle, htreq, r, hr', hresp⟩ := handle_next hstep
    rw [hr] at hpresentable
    refine ⟨htidle, htreq ▸ (List.forall_mem_cons.1 hpresentable).2, ?_⟩
    rw [hresp]
    exact List.forall_mem_append.2 ⟨hgiven, List.forall_mem_singleton.2 hr'⟩

end Sys2Proof.Machine

/-! Illegal words, status codes and entry items (O7, O22, O49): the other encodings at the ports (R65, R66, R75). -/

namespace Sys2Proof.Machine

/-! ### Illegal words -/

/-- A word is illegal when a must-be-zero field is not zero (R75). -/
theorem exists_decode_error_iff (c : Command) :
    (∃ why, decode c = .error why) ↔
      CommandWord.rsv0 c ≠ 0#6 ∨ CommandWord.rsv1 c ≠ 0#8 ∨
      ((CommandWord.op c = 0#2 ∨ CommandWord.op c = 1#2) ∧ CommandWord.b c ≠ 0#8) ∨
      ((CommandWord.op c = 0#2 ∨ CommandWord.op c = 2#2 ∨ CommandWord.op c = 3#2) ∧ CommandWord.m c ≠ 0#32) := by
  have hop : CommandWord.op c ≠ 1#2 ↔ CommandWord.op c = 0#2 ∨ CommandWord.op c = 2#2 ∨ CommandWord.op c = 3#2 := by
    generalize CommandWord.op c = op
    revert op
    decide
  simp only [decode_eq_error_iff, ← Option.ne_none_iff_exists', ne_eq, illegalField_eq_none_iff, ← hop]
  tauto

/-- An idle block whose next request has an illegal word answers it with `InvalidArgument` (R75). -/
theorem step_of_illegal {s : State} {q : Request} {rest : List Request} {why : IllegalWord}
    (hidle : s.inProgress = false) (hreq : s.requests = q :: rest) (hwhy : decode q.cmd = .error why) :
    step s = .next (raiseIllegal (s.accept q rest)) :=
  (step_of_request hidle hreq).trans (handle_of_illegal hwhy rest s)

/-- Settles O7: the decoder finds the field that is not zero, and the step answers the request without an operation. -/
theorem illegalWordAnswersInvalidArgument : Obligations.IllegalWordAnswersInvalidArgument := by
  intro q rest s hidle hreq c illegal
  have hiff : (∃ why, decode c = .error why) ↔ illegal := exists_decode_error_iff c
  refine ⟨hiff, fun hillegal => ?_⟩
  obtain ⟨why, hwhy⟩ := hiff.2 hillegal
  exact ⟨_, .empty (outKindOf (CommandWord.op c)), step_of_illegal hidle hreq hwhy, rfl, empty_length _, rfl, rfl, rfl⟩

/-! ### Status codes -/

/-- The status a code stands for (R66). -/
def Status.ofCode (c : BitVec 2) : Status :=
  if c = 0#2 then .ok
  else if c = 1#2 then .error .invalidArgument
  else if c = 2#2 then .error .insufficientData
  else .error .capacityExceeded

@[simp] theorem ofCode_code (a : Status) : Status.ofCode a.code = a := by
  cases a with
  | ok => rfl
  | error e => cases e <;> rfl

/-- Settles O22: the codes are those of R66, and a status is read back from its code. -/
theorem statusCodesAreDistinct : Obligations.StatusCodesAreDistinct :=
  ⟨rfl, rfl, rfl, rfl, fun _ _ h => Function.LeftInverse.injective ofCode_code h⟩

/-! ### Entry items -/

theorem toItem_toNat (e : Entry) : e.toItem.toNat = e.index.toNat * 2 ^ 64 + e.rho.toNat := append_toNat ..

@[simp] theorem ofItem_toItem (e : Entry) : Entry.ofItem e.toItem = e := by
  rw [Entry.ofItem, Entry.toItem, BitVec.extractLsb'_append_eq_left, BitVec.extractLsb'_append_eq_right]

@[simp] theorem toItem_ofItem (x : EntryItem) : (Entry.ofItem x).toItem = x := by
  rw [Entry.ofItem, Entry.toItem]
  exact (BitVec.extractLsb'_append_extractLsb'_eq_extractLsb' rfl).trans BitVec.extractLsb'_eq_self

/-- Settles O49: `index` is at weight `2^64`, and both halves are read back. -/
theorem entryItemLayout : Obligations.EntryItemLayout :=
  ⟨fun e => ⟨toItem_toNat e, ofItem_toItem e⟩, toItem_ofItem⟩

end Sys2Proof.Machine

/-! Packing in parts (O31): the value of packed fields is their sum at their offsets (R70, R100), which splits where
the first part fills whole bytes. -/

namespace Sys2Proof.Machine

/-! ### The sum of fields at their offsets -/

@[simp] theorem fieldSum_nil (width : Nat) : fieldSum width [] = 0 := rfl

theorem fieldSum_cons (width f : Nat) (fs : List Nat) :
    fieldSum width (f :: fs) = f + 2 ^ width * fieldSum width fs := by
  have hterm (p : Nat × Nat) : p.1 * 2 ^ ((p.2 + 1) * width) = 2 ^ width * (p.1 * 2 ^ (p.2 * width)) := by
    rw [Nat.add_mul, Nat.pow_add]
    ring
  simp only [fieldSum, List.zipIdx_cons', List.map_cons, List.map_map, List.sum_cons, Function.comp_def, Prod.map_fst,
    Prod.map_snd, id_eq, hterm, List.sum_map_mul_left, Nat.zero_mul, Nat.pow_zero, Nat.mul_one]

theorem fieldSum_append (width : Nat) (fs gs : List Nat) :
    fieldSum width (fs ++ gs) = fieldSum width fs + 2 ^ (fs.length * width) * fieldSum width gs := by
  induction fs with
  | nil => simp
  | cons f fs ih =>
    rw [List.cons_append, fieldSum_cons, fieldSum_cons, ih, List.length_cons, Nat.succ_mul, Nat.pow_add]
    ring

/-! ### The value of packed fields -/

/-- Fields below `2^width` that fit into `ACC` are added above what stands below the first of them: the OR of `PLACE`
meets no set bit (R92, R100). -/
theorem placeFields_acc_eq {width : Nat} {fs : List Nat} (hfs : ∀ f ∈ fs, f < 2 ^ width) (i : Nat) {s : State}
    (hs : s.acc.toNat < 2 ^ (i * width)) (hbits : (i + fs.length) * width ≤ Config.accBits) :
    (placeFields width fs i s).acc.toNat = s.acc.toNat + 2 ^ (i * width) * fieldSum width fs := by
  induction fs generalizing i s with
  | nil => simp [placeFields]
  | cons f fs ih =>
    obtain ⟨hf, hfs⟩ := List.forall_mem_cons.1 hfs
    have hindex : i + (f :: fs).length = i + 1 + fs.length := by rw [List.length_cons]; omega
    rw [hindex] at hbits
    have hend : 2 ^ ((i + 1) * width) = 2 ^ (i * width) * 2 ^ width := by rw [Nat.succ_mul, Nat.pow_add]
    have hor : s.acc.toNat ||| f <<< (i * width) = s.acc.toNat + 2 ^ (i * width) * f := by
      rw [Nat.or_comm, ← Nat.shiftLeft_add_eq_or_of_lt hs, Nat.shiftLeft_eq]
      ring
    have hbelow : s.acc.toNat + 2 ^ (i * width) * f < 2 ^ ((i + 1) * width) := by
      rw [hend]
      nlinarith
    have hfits : 2 ^ ((i + 1) * width) ≤ 2 ^ Config.accBits :=
      Nat.pow_le_pow_right Nat.two_pos ((Nat.mul_le_mul_right width (Nat.le_add_right _ _)).trans hbits)
    have hplace : (place f (i * width) (s.setI i)).acc.toNat = s.acc.toNat + 2 ^ (i * width) * f := by
      rw [place_acc, setI_acc, hor, Nat.mod_eq_of_lt (hbelow.trans_le hfits)]
    rw [placeFields, ih hfs (i + 1) (hplace ▸ hbelow) hbits, hplace, fieldSum_cons, hend]
    ring

/-- From a cleared `ACC`, fields below `2^width` that fit into it have their sum as its value (R100). -/
theorem placeFields_clear_acc {width : Nat} {fs : List Nat} (s : State) (hfs : ∀ f ∈ fs, f < 2 ^ width)
    (hbits : fs.length * width ≤ Config.accBits) :
    (placeFields width fs 0 (clear s)).acc.toNat = fieldSum width fs := by
  have hclear : (clear s).acc.toNat = 0 := by rw [clear_eq, setAcc_acc, BitVec.toNat_zero]
  rw [placeFields_acc_eq hfs 0 (by simp) (by rwa [Nat.zero_add]), hclear]
  simp

/-- The bytes sliced after packing have the value of the fields' sum (R116). -/
theorem val_slice_placeFields {width : Nat} {fs : List Nat} (s : State) (hfs : ∀ f ∈ fs, f < 2 ^ width)
    (hbits : fs.length * width ≤ Config.accBits) :
    val (slice (bytesFor (fs.length * width)) (placeFields width fs 0 (clear s))) = fieldSum width fs := by
  have hclear : (clear s).acc.toNat < 2 ^ (0 * width) := by simp
  have hlt := placeFields_acc_lt hfs 0 hclear
  rw [Nat.zero_add] at hlt
  rw [val_slice, Nat.mod_eq_of_lt (hlt.trans_le (Nat.pow_le_pow_right Nat.two_pos (le_mul_bytesFor _))),
    placeFields_clear_acc s hfs hbits]

/-! ### Byte sequences -/

/-- Byte sequences of one length with one value are equal (R40). -/
theorem eq_of_val_eq {xs ys : List Byte} (hlen : xs.length = ys.length) (hval : val xs = val ys) : xs = ys := by
  induction xs generalizing ys with
  | nil => exact (List.length_eq_zero_iff.1 hlen.symm).symm
  | cons x xs ih =>
    cases ys with
    | nil => cases hlen
    | cons y ys =>
      simp only [val] at hval
      have := x.isLt
      have := y.isLt
      have hhead : x = y := BitVec.eq_of_toNat_eq (by omega)
      have htail : xs = ys := ih (Nat.succ.inj hlen) (by omega)
      rw [hhead, htail]

/-- Whole bytes before further bits are counted apart. -/
theorem bytesFor_add {t : Nat} (u : Nat) (h : 8 ∣ t) : bytesFor (t + u) = bytesFor t + bytesFor u := by
  unfold bytesFor
  omega

theorem mul_bytesFor_of_dvd {t : Nat} (h : 8 ∣ t) : 8 * bytesFor t = t := by
  unfold bytesFor
  omega

/-- Packing fields in two parts concatenates when the first part fills whole bytes (R70). -/
theorem slice_placeFields_append {width : Nat} {fs gs : List Nat} (s s₁ s₂ : State)
    (hfs : ∀ f ∈ fs ++ gs, f < 2 ^ width) (hbits : (fs.length + gs.length) * width ≤ Config.accBits)
    (hbytes : 8 ∣ fs.length * width) :
    slice (bytesFor ((fs ++ gs).length * width)) (placeFields width (fs ++ gs) 0 (clear s)) =
      slice (bytesFor (fs.length * width)) (placeFields width fs 0 (clear s₁)) ++
      slice (bytesFor (gs.length * width)) (placeFields width gs 0 (clear s₂)) := by
  obtain ⟨hf, hg⟩ := List.forall_mem_append.1 hfs
  have htotal : (fs ++ gs).length * width = fs.length * width + gs.length * width := by
    rw [List.length_append, Nat.add_mul]
  rw [Nat.add_mul] at hbits
  apply eq_of_val_eq
  · rw [slice_length, htotal, bytesFor_add _ hbytes, List.length_append, slice_length, slice_length]
  · rw [val_append, slice_length, mul_bytesFor_of_dvd hbytes, val_slice_placeFields s hfs (htotal ▸ hbits),
      val_slice_placeFields s₁ hf (by omega), val_slice_placeFields s₂ hg (by omega), fieldSum_append]

/-! ### DPACK -/

theorem any_elementBad_eq_false {binbits : Nat} {regs : List RegElem} (h : ∀ x ∈ regs, ElementInRange binbits x) :
    regs.any (elementBad binbits) = false := by
  refine List.any_eq_false.2 fun x hx => ?_
  obtain ⟨hlow, hhigh⟩ := h x hx
  rw [elementBad_iff]
  omega

/-- The answer of `DPACK` on legal registers (R115). -/
theorem dpackRegisters_ok_responses {binbits : Nat} {regs : List RegElem} (s : State) (hlow : 1 ≤ binbits)
    (hhigh : binbits ≤ 64) (hbits : regs.length * binbits ≤ 2 ^ 20) (hregs : ∀ x ∈ regs, ElementInRange binbits x) :
    (dpackRegisters binbits regs s).responses = s.responses ++
      [⟨.ok, .bytes (slice (bytesFor (regs.length * binbits))
        (placeFields binbits (regs.map (denseField binbits)) 0 (clear s)))⟩] := by
  rw [dpackRegisters_of_legal regs s (by omega) (Nat.not_lt.2 hbits) (any_elementBad_eq_false hregs),
    packRegisters_responses, slice_placeFields_clear _ _ _ _ s]
  rfl

/-- Settles O31: the three operations slice packed fields, and the fields of the whole are those of the parts. -/
theorem dpackInPartsConcatenates : Obligations.DpackInPartsConcatenates := by
  intro binbits xs ys s₁ s₂ s₃ hpin₁ hpin₂ hpin₃ hlow hhigh hbits hregs hbytes
  obtain ⟨hxs, hys⟩ := List.forall_mem_append.1 hregs
  have htotal : (xs ++ ys).length * binbits ≤ 2 ^ 20 := by rwa [List.length_append]
  have hparts : xs.length * binbits + ys.length * binbits ≤ 2 ^ 20 := by rwa [← Nat.add_mul]
  have hfields : ∀ f ∈ xs.map (denseField binbits) ++ ys.map (denseField binbits), f < 2 ^ binbits := by
    rw [← List.map_append]
    exact List.forall_mem_map.2 fun x _ => denseField_lt binbits x
  have hconcat := slice_placeFields_append s₃ s₁ s₂ hfields (by rwa [List.length_map, List.length_map])
    (by rwa [List.length_map])
  simp only [← List.map_append, List.length_map] at hconcat
  refine ⟨_, _, _, _, _, execDpack_of_elements hpin₁ _, dpackRegisters_ok_responses s₁ hlow hhigh (by omega) hxs,
    execDpack_of_elements hpin₂ _, dpackRegisters_ok_responses s₂ hlow hhigh (by omega) hys,
    execDpack_of_elements hpin₃ _, ?_⟩
  rw [dpackRegisters_ok_responses s₃ hlow hhigh htotal hregs, hconcat]

end Sys2Proof.Machine

/-! The accumulator primitives (O50 to O55): the bits of `PLACE` (R92), the value of `LOAD` (R95), fields placed and
extracted again (R100 to R103). -/

namespace Sys2Proof.Machine

/-! ### PLACE, bit by bit -/

/-- `PLACE` ORs bit `k - o` of the field into bit `k` of `ACC`, and drops bits at `ACC_BITS` and above (R92, R93). -/
theorem getLsbD_place (v o : Nat) (s : State) (k : Nat) :
    (place v o s).acc.getLsbD k =
      (s.acc.getLsbD k || (decide (k < Config.accBits) && (decide (o ≤ k) && v.testBit (k - o)))) := by
  have hbound : (s.acc.getLsbD k && decide (k < Config.accBits)) = s.acc.getLsbD k :=
    Bool.and_eq_left_iff_imp.2 fun h => decide_eq_true (BitVec.lt_of_getLsbD h)
  rw [← BitVec.testBit_toNat, place_acc, Nat.testBit_mod_two_pow, Nat.testBit_or, Nat.testBit_shiftLeft,
    BitVec.testBit_toNat, Bool.and_comm, Bool.and_or_distrib_right, hbound, Bool.and_comm (_ && _)]

/-- Settles O50: `v << o` is `v * 2^o`, and the bits are those of the OR. -/
theorem placeOrsShiftedField : Obligations.PlaceOrsShiftedField := by
  intro v o s
  refine ⟨?_, getLsbD_place v o s, place_eq_setAcc v o s⟩
  rw [place_acc, Nat.shiftLeft_eq]

/-! ### The order of PLACEs -/

/-- Two `PLACE`s commute: OR is commutative and associative (R101). -/
theorem place_right_comm (v o v' o' : Nat) (s : State) : place v' o' (place v o s) = place v o (place v' o' s) := by
  have hacc : (place v' o' (place v o s)).acc = (place v o (place v' o' s)).acc := by
    apply BitVec.eq_of_getLsbD_eq
    intro k _
    simp only [getLsbD_place, Bool.or_right_comm]
  calc place v' o' (place v o s)
      = s.setAcc (place v' o' (place v o s)).acc := rfl
    _ = s.setAcc (place v o (place v' o' s)).acc := by rw [hacc]
    _ = place v o (place v' o' s) := rfl

/-- Settles O52: a fold of commuting steps is the same over every permutation. -/
theorem placementOrderDoesNotMatter : Obligations.PlacementOrderDoesNotMatter := by
  intro ps ps' s hperm
  have : RightCommutative fun (s : State) (p : Nat × Nat) => place p.1 p.2 s :=
    ⟨fun s p p' => place_right_comm p.1 p.2 p'.1 p'.2 s⟩
  rw [hperm.foldl_eq s]

/-! ### LOAD and SLICE -/

/-- `2^17` bytes fill `ACC` (R95). -/
theorem mul_le_accBits {nbytes : Nat} (h : nbytes ≤ 2 ^ 17) : 8 * nbytes ≤ Config.accBits := by
  unfold Config.accBits
  omega

/-- Settles O51: `LOAD` adds byte after byte, and writes `ACC` only. -/
theorem loadReadsValue : Obligations.LoadReadsValue := by
  intro nbytes din s hlen hbytes
  exact ⟨load_clear_acc s hlen (mul_le_accBits hbytes), load_eq_setAcc nbytes din (clear s)⟩

/-- Loading a byte sequence whole and slicing as many bytes gives it back (R103). -/
theorem slice_load_clear {D : List Byte} (s : State) (h : D.length ≤ 2 ^ 17) :
    slice D.length (load D.length D (clear s)) = D := by
  apply eq_of_val_eq (slice_length ..)
  rw [val_slice, load_clear_acc s le_rfl (mul_le_accBits h), List.take_length, Nat.mod_eq_of_lt (val_lt D)]

/-- Settles O55: both directions, by the values of the byte sequences. -/
theorem sliceThenLoad : Obligations.SliceThenLoad :=
  ⟨val_slice, fun _ s h => slice_load_clear s h⟩

/-! ### Disjoint fields: OR is sum -/

theorem fieldOr_cons (width f : Nat) (fs : List Nat) :
    fieldOr width (f :: fs) = f ||| fieldOr width fs <<< width := by
  have hterm (p : Nat × Nat) : p.1 <<< ((p.2 + 1) * width) = p.1 <<< (p.2 * width) <<< width := by
    rw [Nat.succ_mul, Nat.shiftLeft_add]
  have hfold (l : List Nat) : (l.map (· <<< width)).foldl (· ||| ·) (f ||| 0 <<< width) =
      f ||| l.foldl (· ||| ·) 0 <<< width := by
    rw [List.foldl_map]
    exact List.foldl_hom (fun x => f ||| x <<< width) fun x y => by rw [Nat.shiftLeft_or_distrib, Nat.or_assoc]
  have htail := hfold (fs.zipIdx.map fun p => p.1 <<< (p.2 * width))
  rw [Nat.zero_shiftLeft, Nat.or_zero, List.map_map] at htail
  simp only [fieldOr, List.zipIdx_cons', List.map_cons, List.map_map, List.foldl_cons, Function.comp_def,
    Prod.map_fst, Prod.map_snd, id_eq, hterm, Nat.zero_mul, Nat.shiftLeft_zero, Nat.zero_or]
  exact htail

theorem fieldOr_eq_fieldSum {width : Nat} {fs : List Nat} (hfs : ∀ f ∈ fs, f < 2 ^ width) :
    fieldOr width fs = fieldSum width fs := by
  induction fs with
  | nil => rfl
  | cons f fs ih =>
    obtain ⟨hf, hfs⟩ := List.forall_mem_cons.1 hfs
    rw [fieldOr_cons, fieldSum_cons, ih hfs, Nat.or_comm, ← Nat.shiftLeft_add_eq_or_of_lt hf, Nat.shiftLeft_eq]
    ring

/-- Settles O53: the placed value is the sum, and so is the OR. -/
theorem disjointFieldsAreSummed : Obligations.DisjointFieldsAreSummed := fun _ _ s hfs hbits =>
  ⟨placeFields_clear_acc s hfs hbits, fieldOr_eq_fieldSum hfs⟩

/-! ### Place, then extract -/

theorem fieldSum_lt {width : Nat} {fs : List Nat} (hfs : ∀ f ∈ fs, f < 2 ^ width) :
    fieldSum width fs < 2 ^ (fs.length * width) := by
  induction fs with
  | nil => simp
  | cons f fs ih =>
    obtain ⟨hf, hfs⟩ := List.forall_mem_cons.1 hfs
    have := ih hfs
    rw [fieldSum_cons, List.length_cons, Nat.succ_mul, Nat.pow_add]
    nlinarith

/-- Field `i` stands at offset `i * width` of the sum (R102). -/
theorem fieldSum_shiftRight_mod {width : Nat} {fs : List Nat} (hfs : ∀ f ∈ fs, f < 2 ^ width) {i f : Nat}
    (hi : fs[i]? = some f) : fieldSum width fs >>> (i * width) % 2 ^ width = f := by
  obtain ⟨hlt, rfl⟩ := List.getElem?_eq_some_iff.1 hi
  have hlow : fieldSum width (fs.take i) < 2 ^ (i * width) := by
    have := fieldSum_lt (fs := fs.take i) fun f hf => hfs f (List.mem_of_mem_take hf)
    rwa [List.length_take_of_le hlt.le] at this
  have hsplit : fieldSum width fs =
      fieldSum width (fs.take i) + 2 ^ (i * width) * (fs[i] + 2 ^ width * fieldSum width (fs.drop (i + 1))) := by
    conv_lhs => rw [← List.take_append_drop i fs, List.drop_eq_getElem_cons hlt, fieldSum_append, fieldSum_cons,
      List.length_take_of_le hlt.le]
  rw [hsplit, Nat.shiftRight_eq_div_pow, Nat.add_mul_div_left _ _ (Nat.two_pow_pos _), Nat.div_eq_of_lt hlow,
    Nat.zero_add, Nat.add_mul_mod_self_left, Nat.mod_eq_of_lt (hfs _ (List.getElem_mem hlt))]

/-- Settles O54: `EXTRACT` reads the sum of the fields, field `i` at `i * width`, and nothing stands above the last. -/
theorem placeThenExtract : Obligations.PlaceThenExtract := by
  intro width fields s hfields hbits t
  have hacc : t.acc.toNat = fieldSum width fields := placeFields_clear_acc s hfields hbits
  refine ⟨fun i f hi => ?_, fun o w ho => ?_⟩
  · rw [extract, and_mask, hacc, fieldSum_shiftRight_mod hfields hi]
  · have hbelow : fieldSum width fields < 2 ^ o :=
      (fieldSum_lt hfields).trans_le (Nat.pow_le_pow_right Nat.two_pos ho)
    rw [extract, hacc, Nat.shiftRight_eq_div_pow, Nat.div_eq_of_lt hbelow, Nat.zero_and]

end Sys2Proof.Machine

/-! The byte-buffer form (O56): the bits and the partial sums of a byte sequence, and what R104's loops do to them. -/

namespace Sys2Proof.Machine

/-! ### A byte sequence as bits and in parts -/

/-- Bit `k` of a byte sequence's value is bit `k mod 8` of byte `k / 8` (R40). -/
theorem testBit_val (D : List Byte) (k : Nat) : (val D).testBit k = (D[k / 8]?.getD 0#8).getLsbD (k % 8) := by
  induction D generalizing k with
  | nil => simp [val]
  | cons d ds ih =>
    have hbits : (val (d :: ds)).testBit k = if k < 8 then d.toNat.testBit k else (val ds).testBit (k - 8) := by
      rw [val, Nat.add_comm]
      exact Nat.testBit_two_pow_mul_add _ d.isLt k
    rw [hbits]
    by_cases hk : k < 8
    · rw [if_pos hk, Nat.div_eq_of_lt hk, Nat.mod_eq_of_lt hk, BitVec.testBit_toNat]
      rfl
    · obtain ⟨m, rfl⟩ : ∃ m, k = m + 8 := ⟨k - 8, by omega⟩
      rw [if_neg hk, Nat.add_sub_cancel, ih, Nat.add_div_right _ (by decide), Nat.add_mod_right,
        List.getElem?_cons_succ]

/-- Dropping bytes shifts the value (R40). -/
theorem val_drop {D : List Byte} {k : Nat} (hk : k ≤ D.length) : val (D.drop k) = val D >>> (8 * k) := by
  have hlow : val (D.take k) < 2 ^ (8 * k) := by
    have := val_lt (D.take k)
    rwa [List.length_take_of_le hk] at this
  have hval : val D = val (D.take k) + 2 ^ (8 * k) * val (D.drop k) := by
    conv_lhs => rw [← List.take_append_drop k D, val_append, List.length_take_of_le hk]
  rw [hval, Nat.shiftRight_eq_div_pow, Nat.add_mul_div_left _ _ (Nat.two_pow_pos _), Nat.div_eq_of_lt hlow,
    Nat.zero_add]

/-! ### PLACE -/

theorem bufferPlaceByte_of_lt (v o : Nat) {D : List Byte} {j : Nat} (hj : j < D.length) :
    bufferPlaceByte v o D j =
      D.set j (D[j] ||| BitVec.ofNat 8 ((v <<< (o % 8)) >>> (8 * (j - o / 8)))) := by
  have hmask : (v <<< (o % 8)) >>> (8 * (j - o / 8)) &&& 0xFF = (v <<< (o % 8)) >>> (8 * (j - o / 8)) % 2 ^ 8 :=
    Nat.and_two_pow_sub_one_eq_mod _ 8
  have hbyte (x : Nat) : BitVec.ofNat 8 (x % 2 ^ 8) = BitVec.ofNat 8 x := by
    apply BitVec.eq_of_toNat_eq
    rw [BitVec.toNat_ofNat, BitVec.toNat_ofNat, Nat.mod_mod]
  simp only [bufferPlaceByte, memRead, memWrite, List.getElem?_eq_getElem hj, hmask, hbyte]

@[simp] theorem bufferPlaceByte_length (v o : Nat) (D : List Byte) (j : Nat) :
    (bufferPlaceByte v o D j).length = D.length := by
  unfold bufferPlaceByte memWrite
  split
  · exact List.length_set
  · rfl

@[simp] theorem foldl_bufferPlaceByte_length (v o : Nat) (js : List Nat) (D : List Byte) :
    (js.foldl (bufferPlaceByte v o) D).length = D.length := by
  induction js generalizing D with
  | nil => rfl
  | cons j js ih => rw [List.foldl_cons, ih, bufferPlaceByte_length]

/-- The bits that byte `j` receives are those of `v << o` at its own positions. -/
theorem testBit_placedPart (v : Nat) {o j k : Nat} (hj : o / 8 ≤ j) (hk : k / 8 = j) :
    ((v <<< (o % 8)) >>> (8 * (j - o / 8))).testBit (k % 8) = (v <<< o).testBit k := by
  have hpos : 8 * (j - o / 8) + k % 8 - o % 8 = k - o := by omega
  have hge : 8 * (j - o / 8) + k % 8 ≥ o % 8 ↔ k ≥ o := by omega
  simp only [Nat.testBit_shiftRight, Nat.testBit_shiftLeft, hpos, hge]

/-- One turn of the byte-buffer `PLACE` ORs the bits of `v << o` into byte `j` (R104). -/
theorem testBit_val_bufferPlaceByte (v : Nat) {o j : Nat} {D : List Byte} (hlow : o / 8 ≤ j) (hj : j < D.length)
    (k : Nat) :
    (val (bufferPlaceByte v o D j)).testBit k =
      ((val D).testBit k || (decide (k / 8 = j) && (v <<< o).testBit k)) := by
  rw [bufferPlaceByte_of_lt v o hj, testBit_val, testBit_val]
  by_cases hk : k / 8 = j
  · have hpart : (BitVec.ofNat 8 ((v <<< (o % 8)) >>> (8 * (j - o / 8)))).getLsbD (k % 8) = (v <<< o).testBit k := by
      rw [BitVec.getLsbD_ofNat, decide_eq_true (Nat.mod_lt k (by decide)), Bool.true_and, testBit_placedPart v hlow hk]
    rw [hk, List.getElem?_set_self hj, List.getElem?_eq_getElem hj, Option.getD_some, Option.getD_some,
      BitVec.getLsbD_or, hpart, decide_eq_true rfl, Bool.true_and]
  · rw [List.getElem?_set_ne (Ne.symm hk), decide_eq_false hk, Bool.false_and, Bool.or_false]

/-- The byte-buffer loop over the bytes `js` ORs in the bits of `v << o` that lie in them. -/
theorem testBit_val_foldl_bufferPlaceByte (v : Nat) {o : Nat} {js : List Nat} {D : List Byte}
    (hjs : ∀ j ∈ js, o / 8 ≤ j ∧ j < D.length) (k : Nat) :
    (val (js.foldl (bufferPlaceByte v o) D)).testBit k =
      ((val D).testBit k || (decide (k / 8 ∈ js) && (v <<< o).testBit k)) := by
  induction js generalizing D with
  | nil => simp
  | cons j js ih =>
    obtain ⟨⟨hlow, hj⟩, hjs⟩ := List.forall_mem_cons.1 hjs
    rw [List.foldl_cons, ih (by simpa using hjs), testBit_val_bufferPlaceByte v hlow hj, Bool.or_assoc,
      ← Bool.and_or_distrib_right, ← Bool.decide_or]
    simp only [List.mem_cons]

theorem mem_fieldBytes {o w : Nat} (hw : 1 ≤ w) (j : Nat) :
    j ∈ fieldBytes o w ↔ o / 8 ≤ j ∧ j ≤ (o + w - 1) / 8 := by
  rw [fieldBytes, List.mem_range'_1]
  omega

/-- The bytes `j0 .. j1` hold every bit of a field below `2^w` at offset `o`. -/
theorem testBit_shiftLeft_of_not_mem_fieldBytes {v o w k : Nat} (hw : 1 ≤ w) (hv : v < 2 ^ w)
    (hk : k / 8 ∉ fieldBytes o w) : (v <<< o).testBit k = false := by
  rw [mem_fieldBytes hw] at hk
  rw [Nat.testBit_shiftLeft]
  by_cases ho : o ≤ k
  · have hhigh : w ≤ k - o := by omega
    rw [Nat.testBit_lt_two_pow (hv.trans_le (Nat.pow_le_pow_right Nat.two_pos hhigh)), Bool.and_false]
  · rw [decide_eq_false ho, Bool.false_and]

/-- The byte-buffer `PLACE` ORs the shifted field into the buffer's value (R104). -/
theorem val_bufferPlace {v o w : Nat} {D : List Byte} (hw : 1 ≤ w) (hv : v < 2 ^ w) (hfits : o + w ≤ 8 * D.length) :
    val (bufferPlace v o w D) = val D ||| v <<< o := by
  have hbytes : ∀ j ∈ fieldBytes o w, o / 8 ≤ j ∧ j < D.length := by
    intro j hj
    obtain ⟨hlow, hhigh⟩ := (mem_fieldBytes hw j).1 hj
    omega
  apply Nat.eq_of_testBit_eq
  intro k
  rw [bufferPlace, testBit_val_foldl_bufferPlaceByte v hbytes, Nat.testBit_or]
  by_cases hk : k / 8 ∈ fieldBytes o w
  · rw [decide_eq_true hk, Bool.true_and]
  · rw [testBit_shiftLeft_of_not_mem_fieldBytes hw hv hk, Bool.and_false]

/-- A field that lies within `ACC` is placed without loss (R93). -/
theorem place_acc_of_fits {v o w : Nat} {s : State} (hv : v < 2 ^ w) (hfits : o + w ≤ Config.accBits) :
    (place v o s).acc.toNat = s.acc.toNat ||| v <<< o := by
  have hfield : v <<< o < 2 ^ Config.accBits := by
    calc v <<< o = v * 2 ^ o := Nat.shiftLeft_eq ..
      _ < 2 ^ w * 2 ^ o := Nat.mul_lt_mul_of_pos_right hv (Nat.two_pow_pos o)
      _ = 2 ^ (o + w) := by rw [Nat.pow_add, Nat.mul_comm]
      _ ≤ 2 ^ Config.accBits := Nat.pow_le_pow_right Nat.two_pos hfits
  rw [place_acc, Nat.mod_eq_of_lt (Nat.or_lt_two_pow s.acc.isLt hfield)]

/-! ### EXTRACT -/

/-- The terms of `n` bytes from `j0 = o / 8` on sum to the value of these bytes (R104). -/
theorem sum_bufferTerm {o n : Nat} {D : List Byte} (h : o / 8 + n ≤ D.length) :
    ((List.range' (o / 8) n).map (bufferTerm o D)).sum = val ((D.drop (o / 8)).take n) := by
  induction n with
  | zero => simp [val]
  | succ n ih =>
    have hj : o / 8 + n < D.length := by omega
    have hterm : bufferTerm o D (o / 8 + n) = 2 ^ (8 * n) * val [D[o / 8 + n]] := by
      simp only [bufferTerm, memRead, List.getElem?_eq_getElem hj, Nat.add_sub_cancel_left, Nat.shiftLeft_eq, val]
      ring
    have htake : (D.drop (o / 8)).take (n + 1) = (D.drop (o / 8)).take n ++ [D[o / 8 + n]] := by
      rw [List.take_add_one, List.getElem?_drop, List.getElem?_eq_getElem hj, Option.toList_some]
    have hlen : ((D.drop (o / 8)).take n).length = n := List.length_take_of_le (by rw [List.length_drop]; omega)
    rw [List.range'_1_concat, List.map_append, List.sum_append, ih (by omega), htake, val_append, hlen,
      List.map_singleton, List.sum_singleton, hterm]

/-- The byte-buffer `EXTRACT` reads bits `o+w-1 .. o` of the buffer's value (R104). -/
theorem bufferExtract_eq {o w : Nat} {D : List Byte} (hw : 1 ≤ w) (hfits : o + w ≤ 8 * D.length) :
    bufferExtract o w D = val D >>> o % 2 ^ w := by
  have hbytes : o / 8 + ((o + w - 1) / 8 + 1 - o / 8) ≤ D.length := by omega
  have hcount : o % 8 + w ≤ 8 * ((o + w - 1) / 8 + 1 - o / 8) := by omega
  have hoffset : 8 * (o / 8) + o % 8 = o := Nat.div_add_mod o 8
  rw [bufferExtract, and_mask, fieldBytes, sum_bufferTerm hbytes, ← mod_two_pow_shiftRight_mod _ hcount,
    val_take_mod (by rw [List.length_drop]; omega) le_rfl, mod_two_pow_shiftRight_mod _ hcount,
    val_drop (by omega), ← Nat.shiftRight_add, hoffset]

/-- Settles O56: both forms OR in the shifted field, and both read the bits of the field. -/
theorem byteBufferFormAgrees : Obligations.ByteBufferFormAgrees := by
  refine ⟨fun v o w D s hw hv hfits hlen hacc => ⟨foldl_bufferPlaceByte_length .., ?_⟩,
    fun o w D s hw hfits hacc => ?_⟩
  · rw [val_bufferPlace hw hv hfits, place_acc_of_fits hv (hfits.trans (mul_le_accBits hlen)), hacc]
  · rw [bufferExtract_eq hw hfits, extract, and_mask, hacc]

end Sys2Proof.Machine

/-! The dense operations (O25 to O29, O32 to O35, O37): each check of R160 answers its error, and past the checks the
packed value and the list of fields at its offsets determine each other (R116, R121, R123). -/

namespace Sys2Proof.Machine

/-! ### The fields of a number -/

/-- The `count` fields of `width` bits of `x`, from bit 0 on: field `i` at offset `i * width` (R70, R121). -/
def fieldsOf (width count x : Nat) : List Nat := (List.range count).map fun i => x >>> (i * width) % 2 ^ width

@[simp] theorem fieldsOf_length (width count x : Nat) : (fieldsOf width count x).length = count := by
  rw [fieldsOf, List.length_map, List.length_range]

theorem forall_mem_fieldsOf_lt (width count x : Nat) : ∀ f ∈ fieldsOf width count x, f < 2 ^ width :=
  List.forall_mem_map.2 fun _ _ => Nat.mod_lt _ (Nat.two_pow_pos width)

/-- Bits above the last field do not show in the fields. -/
theorem fieldsOf_mod (width count x : Nat) :
    fieldsOf width count (x % 2 ^ (count * width)) = fieldsOf width count x := by
  refine List.map_congr_left fun i hi => mod_two_pow_shiftRight_mod x ?_
  rw [← Nat.succ_mul]
  exact Nat.mul_le_mul_right width (List.mem_range.1 hi)

/-- The fields of a sum of fields at their offsets are these fields (R102). -/
theorem fieldsOf_fieldSum {width : Nat} {fs : List Nat} (hfs : ∀ f ∈ fs, f < 2 ^ width) :
    fieldsOf width fs.length (fieldSum width fs) = fs := by
  apply List.ext_getElem (fieldsOf_length ..)
  intro i _ hi
  simp only [fieldsOf, List.getElem_map, List.getElem_range]
  exact fieldSum_shiftRight_mod hfs (List.getElem?_eq_getElem hi)

/-- The fields of a number sum up to its bits below the end of the last one. -/
theorem fieldSum_fieldsOf (width count x : Nat) :
    fieldSum width (fieldsOf width count x) = x % 2 ^ (count * width) := by
  induction count with
  | zero => simp [fieldsOf, Nat.mod_one]
  | succ k ih =>
    have hsucc : fieldsOf width (k + 1) x = fieldsOf width k x ++ [x >>> (k * width) % 2 ^ width] := by
      simp only [fieldsOf, List.range_succ, List.map_append, List.map_singleton]
    rw [hsucc, fieldSum_append, ih, fieldsOf_length, fieldSum_cons, fieldSum_nil, Nat.mul_zero, Nat.add_zero,
      Nat.succ_mul, Nat.pow_add, Nat.mod_mul, Nat.shiftRight_eq_div_pow]

/-! ### Elements and values -/

theorem toNat_toInt_lt_of_inRange {binbits : Nat} {x : RegElem} (h : ElementInRange binbits x) :
    x.toInt.toNat < 2 ^ binbits := by
  have := Nat.two_pow_pos binbits
  obtain ⟨_, hhigh⟩ := h
  omega

theorem forall_mem_toNat_toInt_lt {binbits : Nat} {regs : List RegElem} (h : ∀ x ∈ regs, ElementInRange binbits x) :
    ∀ f ∈ regs.map fun x => x.toInt.toNat, f < 2 ^ binbits :=
  List.forall_mem_map.2 fun x hx => toNat_toInt_lt_of_inRange (h x hx)

/-- The mask of `DPACK` leaves legal elements as they are (R113, R115). -/
theorem map_denseField_of_inRange {binbits : Nat} {regs : List RegElem} (h : ∀ x ∈ regs, ElementInRange binbits x) :
    regs.map (denseField binbits) = regs.map fun x => x.toInt.toNat := by
  refine List.map_congr_left fun x hx => ?_
  rw [denseField, elementValue, and_mask, Nat.mod_eq_of_lt (toNat_toInt_lt_of_inRange (h x hx))]

/-- A dense field fits an output element (R68). -/
theorem toNat_denseValue {binbits f : Nat} (hhigh : binbits ≤ 64) (hf : f < 2 ^ binbits) : (denseValue f).toNat = f :=
  BitVec.toNat_ofNat f 64 ▸ Nat.mod_eq_of_lt (hf.trans_le (Nat.pow_le_pow_right Nat.two_pos hhigh))

theorem map_toNat_map_denseValue {binbits : Nat} {fs : List Nat} (hhigh : binbits ≤ 64)
    (hfs : ∀ f ∈ fs, f < 2 ^ binbits) : ((fs.map denseValue).map fun v => v.toNat) = fs := by
  rw [List.map_map]
  exact (List.map_congr_left fun f hf => toNat_denseValue hhigh (hfs f hf)).trans (List.map_id fs)

/-- A value that `DUNPACK` gives, presented to `DPACK`, is the same number: it is not negative (R64, R68). -/
theorem toInt_setWidth_regElem (v : RegValue) : (v.setWidth 65).toInt = v.toNat := by
  have hwide : (v.setWidth 65).toNat = v.toNat := BitVec.toNat_setWidth_of_le (by decide)
  have := v.isLt
  rw [BitVec.toInt_eq_toNat_of_lt (by omega), hwide]

theorem map_toNat_toInt_map_setWidth (vs : List RegValue) :
    ((vs.map fun v => v.setWidth 65).map fun x => x.toInt.toNat) = vs.map fun v => v.toNat := by
  rw [List.map_map]
  exact List.map_congr_left fun v _ => congrArg Int.toNat (toInt_setWidth_regElem v)

/-- Values below `2^binbits`, presented to `DPACK`, are legal elements. -/
theorem elementInRange_setWidth {binbits : Nat} {v : RegValue} (h : v.toNat < 2 ^ binbits) :
    ElementInRange binbits (v.setWidth 65) := by
  rw [ElementInRange, toInt_setWidth_regElem]
  omega

/-! ### DPACK -/

/-- What the loop of `DPACK` leaves in `ACC`, the registers legal (R116). -/
theorem placeFields_denseField_acc {binbits : Nat} {regs : List RegElem} (s : State)
    (hbits : regs.length * binbits ≤ 2 ^ 20) (hregs : ∀ x ∈ regs, ElementInRange binbits x) :
    (placeFields binbits (regs.map (denseField binbits)) 0 (clear s)).acc.toNat =
      fieldSum binbits (regs.map fun x => x.toInt.toNat) := by
  rw [map_denseField_of_inRange hregs]
  exact placeFields_clear_acc s (forall_mem_toNat_toInt_lt hregs) (by rwa [List.length_map])

/-- What `DPACK` slices, the registers legal, has the value of R116. -/
theorem val_slice_placeFields_denseField {binbits : Nat} {regs : List RegElem} (s : State)
    (hbits : regs.length * binbits ≤ 2 ^ 20) (hregs : ∀ x ∈ regs, ElementInRange binbits x) :
    val (slice (bytesFor (regs.length * binbits)) (placeFields binbits (regs.map (denseField binbits)) 0 (clear s))) =
      fieldSum binbits (regs.map fun x => x.toInt.toNat) := by
  have hval := val_slice_placeFields s (forall_mem_toNat_toInt_lt hregs) (by rwa [List.length_map])
  rw [List.length_map] at hval
  rwa [map_denseField_of_inRange hregs]

/-- Settles O29: the checks pass, and the fields that the loop packs are the registers. -/
theorem dpackPacksRegisters : Obligations.DpackPacksRegisters := by
  intro binbits regs s hpin hlow hhigh hbits hregs
  have hval := val_slice_placeFields_denseField ((s.setN regs.length).setTotalBits (regs.length * binbits)) hbits hregs
  rw [execDpack_of_elements hpin, dpackRegisters_of_legal regs s (by omega) (Nat.not_lt.2 hbits)
    (any_elementBad_eq_false hregs), packRegisters_eq]
  exact ⟨_, _, rfl, rfl, rfl, slice_length .., hval, (placeFields_denseField_acc _ hbits hregs).trans hval.symm, rfl,
    rfl⟩

/-- Settles O25: the width check comes first. -/
theorem dpackRejectsWidth : Obligations.DpackRejectsWidth := by
  intro binbits regs s hpin hwidth
  rw [execDpack_of_elements hpin, dpackRegisters_of_width _ _ _ hwidth]
  exact ⟨_, rfl, rfl, rfl⟩

/-- Settles O26: the ceiling check comes before the elements are looked at. -/
theorem dpackRejectsOverCeiling : Obligations.DpackRejectsOverCeiling := by
  intro binbits regs s hpin hlow hhigh hceiling
  rw [execDpack_of_elements hpin, dpackRegisters_of_ceiling _ _ (by omega) hceiling]
  exact ⟨_, rfl, rfl, rfl⟩

/-- Settles O27: the element check finds the one that is out of range. -/
theorem dpackRejectsElement : Obligations.DpackRejectsElement := by
  intro binbits regs x s hpin hlow hhigh hbits hx hrange
  have hany : regs.any (elementBad binbits) = true :=
    List.any_eq_true.2 ⟨x, hx, (elementBad_iff binbits x).2 hrange⟩
  rw [execDpack_of_elements hpin, dpackRegisters_of_element _ _ (by omega) (Nat.not_lt.2 hbits) hany]
  exact ⟨_, rfl, rfl, rfl⟩

/-- Settles O28: the checks pass, and zero bytes are sliced. -/
theorem dpackOfEmptyIsEmpty : Obligations.DpackOfEmptyIsEmpty := by
  intro binbits s hpin hlow hhigh
  refine ⟨_, execDpack_of_elements hpin _, ?_⟩
  rw [dpackRegisters_ok_responses s hlow hhigh (by simp) (List.forall_mem_nil _), List.length_nil, Nat.zero_mul]
  rfl

/-! ### DUNPACK -/

/-- On legal arguments and enough data the checks of `DUNPACK` pass (R121). -/
theorem dunpackData_of_enough {count binbits : Nat} {data : List Byte} (s : State) (hlow : 1 ≤ binbits)
    (hhigh : binbits ≤ 64) (hbits : count * binbits ≤ 2 ^ 20) (hlen : bytesFor (count * binbits) ≤ data.length) :
    dunpackData count binbits data s =
      unpackRegisters count binbits data ((s.setN count).setTotalBits (count * binbits)) :=
  dunpackData_of_legal (m := count) data s (by omega) (by omega) (Nat.not_lt.2 hbits) (Nat.not_lt.2 hlen)

/-- The values `DUNPACK` extracts: the fields of the data (R121, R122). -/
theorem extractFields_load_eq_fieldsOf {count width : Nat} {data : List Byte} (s : State)
    (hbits : count * width ≤ 2 ^ 20) (hlen : bytesFor (count * width) ≤ data.length) :
    extractFields width count (load (bytesFor (count * width)) data (clear s)) = fieldsOf width count (val data) := by
  rw [extractFields_load_bytesFor s hbits hlen, ← fieldsOf_mod]
  rfl

/-- Settles O35: `LOAD` gives the value of the needed bytes, and the loop extracts the fields of the data. -/
theorem dunpackExtractsFields : Obligations.DunpackExtractsFields := by
  intro count binbits data s hpin hlow hhigh hbits hlen
  rw [execDunpack_of_bytes hpin, dunpackData_of_enough s hlow hhigh hbits hlen, unpackRegisters_eq]
  have hacc := load_clear_acc ((s.setN count).setTotalBits (count * binbits)) hlen
    (mul_le_accBits (bytesFor_le_of_le_ceiling hbits))
  refine ⟨_, _, rfl, rfl, rfl, ?_, ?_, hacc, rfl, rfl⟩
  · rw [List.length_map, extractFields_length]
  · rw [extractFields_load_eq_fieldsOf _ hbits hlen]
    exact map_toNat_map_denseValue hhigh (forall_mem_fieldsOf_lt _ _ _)

/-- Settles O32: the width and the count are checked first. -/
theorem dunpackRejectsArguments : Obligations.DunpackRejectsArguments := by
  intro m binbits data s hpin harguments
  rw [execDunpack_of_bytes hpin, dunpackData_of_arguments _ _ _ _ harguments]
  exact ⟨_, rfl, rfl, rfl⟩

/-- Settles O33: the ceiling check comes before the length of the data is looked at. -/
theorem dunpackRejectsOverCeiling : Obligations.DunpackRejectsOverCeiling := by
  intro m binbits data s hpin hlow hhigh hm hceiling
  obtain ⟨count, rfl⟩ := Int.eq_ofNat_of_zero_le hm
  rw [execDunpack_of_bytes hpin, dunpackData_of_ceiling _ _ (by omega) (by omega) (by exact_mod_cast hceiling)]
  exact ⟨_, rfl, rfl, rfl⟩

/-- Settles O34: the length check splits the data on the number of bytes needed. -/
theorem dunpackRejectsShortData : Obligations.DunpackRejectsShortData := by
  intro m binbits data s hpin hlow hhigh hm hbits
  obtain ⟨count, rfl⟩ := Int.eq_ofNat_of_zero_le hm
  have hneed : ((count : Int) * binbits + 7) / 8 = (bytesFor (count * binbits) : Nat) := by
    unfold bytesFor
    push_cast
    rfl
  have hbits : count * binbits ≤ 2 ^ 20 := by exact_mod_cast hbits
  rw [hneed, Nat.cast_lt, Nat.cast_le, execDunpack_of_bytes hpin]
  constructor
  · intro hshort
    rw [dunpackData_of_short _ _ (by omega) (by omega) (Nat.not_lt.2 hbits) hshort]
    exact ⟨_, rfl, rfl, rfl⟩
  · intro hlen
    exact ⟨_, _, rfl, dunpackData_ok_responses s hlow hhigh hbits hlen⟩

/-! ### The round trip -/

/-- Settles O37: the fields of the packed value are the registers, and the fields of the data sum up to its bits below
the padding. -/
theorem denseRoundTrip : Obligations.DenseRoundTrip := by
  refine ⟨fun binbits regs s hpin hlow hhigh hbits hregs => ?_,
    fun count binbits data s hpin hlow hhigh hbits hlen => ?_⟩
  · obtain ⟨t, D, hexec, hresp, -, hlen, hval, -⟩ := dpackPacksRegisters binbits regs s hpin hlow hhigh hbits hregs
    refine ⟨t, D, hexec, hresp, fun s' hpin' => ?_⟩
    obtain ⟨t', vs, hexec', hresp', -, -, hvs, -⟩ :=
      dunpackExtractsFields regs.length binbits D s' hpin' hlow hhigh hbits hlen.ge
    have hfields : fieldsOf binbits regs.length (val D) = regs.map fun x => x.toInt.toNat := by
      have := fieldsOf_fieldSum (forall_mem_toNat_toInt_lt hregs)
      rwa [List.length_map, ← hval] at this
    refine ⟨t', vs, hexec', hresp', ?_⟩
    calc (vs.map fun v => (v.toNat : Int))
        = (vs.map fun v => v.toNat).map Int.ofNat := List.map_map.symm
      _ = (regs.map fun x => x.toInt.toNat).map Int.ofNat := congrArg _ (hvs.trans hfields)
      _ = regs.map fun x => x.toInt := by
        rw [List.map_map]
        exact List.map_congr_left fun x hx => Int.toNat_of_nonneg (hregs x hx).1
  · obtain ⟨t, vs, hexec, hresp, -, hcount, hvs, -⟩ :=
      dunpackExtractsFields count binbits data s hpin hlow hhigh hbits hlen
    refine ⟨t, vs, hexec, hresp, fun s' hpin' => ?_⟩
    have hfields : (vs.map fun v => v.toNat) = fieldsOf binbits count (val data) := hvs
    have hvalues : ∀ v ∈ vs, v.toNat < 2 ^ binbits :=
      List.forall_mem_map.1 (hfields ▸ forall_mem_fieldsOf_lt binbits count (val data))
    obtain ⟨t', D, hexec', hresp', -, hlen', hval, -⟩ := dpackPacksRegisters binbits _ s' hpin' hlow hhigh
      (by rwa [List.length_map, hcount]) (List.forall_mem_map.2 fun v hv => elementInRange_setWidth (hvalues v hv))
    rw [List.length_map, hcount] at hlen'
    rw [map_toNat_toInt_map_setWidth, hfields, fieldSum_fieldsOf] at hval
    exact ⟨t', D, hexec', hresp', hlen', hval⟩

end Sys2Proof.Machine

/-! The sparse operations (O38 to O41, O43 to O48): the composite field and its two parts (R130, R131), each check of
R160, the OR that `SCOMPRESS` packs (R136), the fields that `SDECOMPRESS` splits (R142), and the round trip (R145). -/

namespace Sys2Proof.Machine

/-! ### The composite field -/

theorem sparseField_eq (rbits : Nat) (e : Entry) :
    sparseField rbits e = (e.index.toNat <<< rbits) ||| (e.rho.toNat % 2 ^ rbits) := by
  rw [sparseField, and_mask]

/-- The entry with only the part of `rho` that is encoded (R137). -/
def truncateRho (rbits : Nat) (e : Entry) : Entry := ⟨e.index, BitVec.ofNat 64 (e.rho.toNat % 2 ^ rbits)⟩

@[simp] theorem sparseField_truncateRho (rbits : Nat) (e : Entry) :
    sparseField rbits (truncateRho rbits e) = sparseField rbits e := by
  have hfits : e.rho.toNat % 2 ^ rbits < 2 ^ 64 := (Nat.mod_le ..).trans_lt e.rho.isLt
  simp only [sparseField_eq, truncateRho, BitVec.toNat_ofNat, Nat.mod_eq_of_lt hfits, Nat.mod_mod]

/-- Disassembly gives back `index` and what is encoded of `rho` (R131, R137). -/
theorem sparseEntry_sparseField (rbits : Nat) (e : Entry) :
    sparseEntry rbits (sparseField rbits e) = truncateRho rbits e := by
  have hrho : e.rho.toNat % 2 ^ rbits < 2 ^ rbits := Nat.mod_lt _ (Nat.two_pow_pos _)
  have hsum : sparseField rbits e = e.rho.toNat % 2 ^ rbits + 2 ^ rbits * e.index.toNat := by
    rw [sparseField_eq, ← Nat.shiftLeft_add_eq_or_of_lt hrho, Nat.shiftLeft_eq]
    ring
  have hindex : sparseField rbits e >>> rbits = e.index.toNat := by
    rw [hsum, Nat.shiftRight_eq_div_pow, Nat.add_mul_div_left _ _ (Nat.two_pow_pos _), Nat.div_eq_of_lt hrho,
      Nat.zero_add]
  have hlow : sparseField rbits e % 2 ^ rbits = e.rho.toNat % 2 ^ rbits := by
    rw [hsum, Nat.add_mul_mod_self_left, Nat.mod_mod]
  rw [sparseEntry, and_mask, hindex, hlow, BitVec.ofNat_toNat, BitVec.setWidth_eq, truncateRho]

theorem truncateRho_of_inRange {b rbits : Nat} {e : Entry} (h : EntryInRange b rbits e) :
    truncateRho rbits e = e := by
  rw [truncateRho, Nat.mod_eq_of_lt h.2, BitVec.ofNat_toNat, BitVec.setWidth_eq]

theorem sparseEntry_sparseField_of_inRange {b rbits : Nat} {e : Entry} (h : EntryInRange b rbits e) :
    sparseEntry rbits (sparseField rbits e) = e := by
  rw [sparseEntry_sparseField, truncateRho_of_inRange h]

/-- Settles O46: the index fits the high bits, and no bit of `rho` is lost to the mask. -/
theorem compositeFieldSplitsBack : Obligations.CompositeFieldSplitsBack := fun _ rbits _ h =>
  ⟨sparseField_lt rbits h.1, sparseEntry_sparseField_of_inRange h⟩

/-- The entry of a `b + rbits`-bit field of `x`: both parts fit the 64 bits of their port (R69, R131). -/
theorem sparseEntry_mod_toNat {b rbits : Nat} (hb : b ≤ 64) (hrbits : rbits ≤ 64) (x : Nat) :
    (sparseEntry rbits (x % 2 ^ (b + rbits))).index.toNat = x >>> rbits % 2 ^ b ∧
    (sparseEntry rbits (x % 2 ^ (b + rbits))).rho.toNat = x % 2 ^ rbits := by
  have hfits {w : Nat} (hw : w ≤ 64) (y : Nat) : (BitVec.ofNat 64 (y % 2 ^ w)).toNat = y % 2 ^ w := by
    rw [BitVec.toNat_ofNat]
    exact Nat.mod_eq_of_lt
      ((Nat.mod_lt _ (Nat.two_pow_pos w)).trans_le (Nat.pow_le_pow_right Nat.two_pos hw))
  have hhigh : (x % 2 ^ (b + rbits)) >>> rbits = x >>> rbits % 2 ^ b := by
    rw [Nat.shiftRight_eq_div_pow, Nat.shiftRight_eq_div_pow, Nat.add_comm b, Nat.pow_add,
      Nat.mod_mul_right_div_self]
  have hlow : x % 2 ^ (b + rbits) % 2 ^ rbits = x % 2 ^ rbits :=
    Nat.mod_mod_of_dvd x (pow_dvd_pow 2 (Nat.le_add_left rbits b))
  rw [sparseEntry, and_mask, hhigh, hlow]
  exact ⟨hfits hb _, hfits hrbits _⟩

/-! ### The checks -/

/-- Settles O39: the ceiling check comes after the widths, whatever the entries. -/
theorem scompressRejectsOverCeiling : Obligations.ScompressRejectsOverCeiling := by
  intro b rbits entries s hpin hb hrbits hpos hceiling
  rw [execScompress_of_entries hpin, scompressEntries_of_ceiling _ _ (by omega) hceiling]
  exact ⟨_, rfl, rfl, rfl⟩

/-- The answer of `SCOMPRESS` past its checks (R135). -/
theorem scompressEntries_ok_responses {b rbits : Nat} {es : List Entry} (s : State)
    (hlegal : ¬ (64 < b ∨ 64 < rbits ∨ b + rbits = 0)) (hbits : es.length * (b + rbits) ≤ 2 ^ 20) :
    (scompressEntries b rbits es s).responses = s.responses ++
      [⟨.ok, .bytes (slice (bytesFor (es.length * (b + rbits)))
        (placeFields (b + rbits) (es.map (sparseField rbits)) 0 (clear s)))⟩] := by
  rw [scompressEntries_of_legal es s hlegal (Nat.not_lt.2 hbits), packEntries_responses,
    slice_placeFields_clear _ _ _ _ s]
  rfl

/-- What the unpacking loop of `SDECOMPRESS` extracts: the fields of the data (R140, R142). -/
theorem extractFields_load_length {data : List Byte} (width count : Nat) (s : State)
    (hbits : 8 * data.length ≤ 2 ^ 20) :
    extractFields width count (load data.length data (clear s)) = fieldsOf width count (val data) := by
  refine List.map_congr_left fun i _ => ?_
  rw [extract, and_mask, load_clear_acc s le_rfl hbits, List.take_length]

/-- The answer of `SDECOMPRESS` past its checks: the entries of the data's fields (R142). -/
theorem sdecompressData_ok_responses {b rbits : Nat} {data : List Byte} (s : State)
    (hlegal : ¬ (64 < b ∨ 64 < rbits ∨ b + rbits = 0)) (hbits : 8 * data.length ≤ 2 ^ 20) :
    (sdecompressData b rbits data s).responses = s.responses ++
      [⟨.ok, .entries ((fieldsOf (b + rbits) (entryCount data.length (b + rbits)) (val data)).map
        (sparseEntry rbits))⟩] := by
  rw [sdecompressData_of_legal data s hlegal (Nat.not_lt.2 hbits), unpackEntries_responses,
    extractFields_load_length _ _ _ hbits]
  rfl

/-- Settles O43: the length of the data decides between the ceiling error and the unpacking. -/
theorem sdecompressRejectsOverCeiling : Obligations.SdecompressRejectsOverCeiling := by
  intro b rbits data s hpin hb hrbits hpos
  rw [execSdecompress_of_bytes hpin]
  constructor
  · intro hceiling
    rw [sdecompressData_of_ceiling _ _ (by omega) hceiling]
    exact ⟨_, rfl, rfl, rfl⟩
  · intro hbits
    exact ⟨_, _, rfl, sdecompressData_ok_responses s (by omega) hbits⟩

theorem scompressEntries_status_of_legal {b rbits : Nat} (es : List Entry) (s : State)
    (hlegal : ¬ (64 < b ∨ 64 < rbits ∨ b + rbits = 0)) :
    ∃ r, (scompressEntries b rbits es s).responses = s.responses ++ [r] ∧ r.status ≠ .error .invalidArgument := by
  by_cases hc : 2 ^ 20 < es.length * (b + rbits)
  · exact ⟨_, congrArg State.responses (scompressEntries_of_ceiling es s hlegal hc), nofun⟩
  · exact ⟨_, scompressEntries_ok_responses s hlegal (Nat.not_lt.1 hc), nofun⟩

theorem sdecompressData_status_of_legal {b rbits : Nat} (data : List Byte) (s : State)
    (hlegal : ¬ (64 < b ∨ 64 < rbits ∨ b + rbits = 0)) :
    ∃ r, (sdecompressData b rbits data s).responses = s.responses ++ [r] ∧
      r.status ≠ .error .invalidArgument := by
  by_cases hc : 2 ^ 20 < 8 * data.length
  · exact ⟨_, congrArg State.responses (sdecompressData_of_ceiling data s hlegal hc), nofun⟩
  · exact ⟨_, sdecompressData_ok_responses s hlegal (Nat.not_lt.1 hc), nofun⟩

/-- Settles O38: the width check comes first, and past it the only error left is the ceiling's. -/
theorem sparseWidthsAreChecked : Obligations.SparseWidthsAreChecked := by
  intro b rbits entries data s s' hpin hpin'
  rw [execScompress_of_entries hpin, execSdecompress_of_bytes hpin']
  constructor
  · intro hwidth
    rw [scompressEntries_of_width _ _ hwidth, sdecompressData_of_width _ _ hwidth]
    exact ⟨_, _, rfl, rfl, rfl, rfl, rfl, rfl⟩
  · intro hb hrbits hpos
    obtain ⟨r, hresp, hstatus⟩ := scompressEntries_status_of_legal (b := b) (rbits := rbits) entries s (by omega)
    obtain ⟨r', hresp', hstatus'⟩ := sdecompressData_status_of_legal (b := b) (rbits := rbits) data s' (by omega)
    exact ⟨_, _, r, r', rfl, rfl, hresp, hstatus, hresp', hstatus'⟩

/-! ### SCOMPRESS -/

/-- Whatever the fields, the packing loop ORs them into `ACC` at their offsets, and bits at `ACC_BITS` and above are
dropped (R92, R93, R136). -/
theorem placeFields_acc_or (width : Nat) (fs : List Nat) (i : Nat) (s : State) :
    (placeFields width fs i s).acc.toNat =
      (s.acc.toNat ||| fieldOr width fs <<< (i * width)) % 2 ^ Config.accBits := by
  induction fs generalizing i s with
  | nil =>
    have hnil : fieldOr width [] = 0 := rfl
    rw [placeFields, hnil, Nat.zero_shiftLeft, Nat.or_zero, Nat.mod_eq_of_lt s.acc.isLt]
  | cons f fs ih =>
    have hoffset : fieldOr width fs <<< ((i + 1) * width) = fieldOr width fs <<< width <<< (i * width) := by
      rw [Nat.succ_mul, Nat.add_comm, Nat.shiftLeft_add]
    rw [placeFields, ih, place_acc, setI_acc, hoffset, fieldOr_cons, Nat.shiftLeft_or_distrib, ← Nat.or_assoc,
      Nat.or_mod_two_pow, Nat.mod_mod, ← Nat.or_mod_two_pow]

theorem placeFields_clear_acc_or (width : Nat) (fs : List Nat) (s : State) :
    (placeFields width fs 0 (clear s)).acc.toNat = fieldOr width fs % 2 ^ Config.accBits := by
  have hclear : (clear s).acc.toNat = 0 := by rw [clear_eq, setAcc_acc, BitVec.toNat_zero]
  rw [placeFields_acc_or, hclear, Nat.zero_or, Nat.zero_mul, Nat.shiftLeft_zero]

/-- Settles O40: `ACC` holds the OR of the fields, and `SLICE` gives its low bytes, all within `ACC`. -/
theorem scompressPacksEntries : Obligations.ScompressPacksEntries := by
  intro b rbits entries s hpin hb hrbits hpos hbits fields
  have hfields : entries.map (sparseField rbits) = fields := List.map_congr_left fun e _ => sparseField_eq rbits e
  have hwithin : 8 * bytesFor (entries.length * (b + rbits)) ≤ Config.accBits :=
    mul_le_accBits (bytesFor_le_of_le_ceiling hbits)
  rw [execScompress_of_entries hpin, scompressEntries_of_legal _ _ (by omega) (Nat.not_lt.2 hbits), packEntries_eq,
    hfields]
  refine ⟨_, _, rfl, rfl, rfl, slice_length .., ?_, placeFields_clear_acc_or .., rfl, rfl⟩
  rw [val_slice, slice_length, placeFields_clear_acc_or, Nat.mod_mod_of_dvd _ (pow_dvd_pow 2 hwithin)]

theorem scompressEntries_map_truncateRho (b rbits : Nat) (es : List Entry) (s : State) :
    scompressEntries b rbits (es.map (truncateRho rbits)) s = scompressEntries b rbits es s := by
  have hfields : (es.map (truncateRho rbits)).map (sparseField rbits) = es.map (sparseField rbits) := by
    rw [List.map_map]
    exact List.map_congr_left fun e _ => sparseField_truncateRho rbits e
  simp only [scompressEntries, packEntries, hfields, List.length_map]

/-- Settles O41: both operations pack the same fields, and their response is one and the same in every state. -/
theorem scompressTruncatesRho : Obligations.ScompressTruncatesRho := by
  intro b rbits entries s s' hpin hpin'
  obtain ⟨r, hr⟩ := scompressEntries_answers b rbits entries
  refine ⟨_, _, r, execScompress_of_entries hpin b rbits, execScompress_of_entries hpin' b rbits,
    (hr s).responses_eq, ?_⟩
  exact (congrArg State.responses (scompressEntries_map_truncateRho b rbits entries s')).trans (hr s').responses_eq

/-! ### SDECOMPRESS -/

/-- Settles O44: `LOAD` gives the value of the data, and each field of it splits into `index` and `rho`. -/
theorem sdecompressSplitsFields : Obligations.SdecompressSplitsFields := by
  intro b rbits data s hpin hb hrbits hpos hbits
  have hacc := load_clear_acc (s.setTotalBits (8 * data.length)) le_rfl hbits
  rw [List.take_length] at hacc
  rw [execSdecompress_of_bytes hpin, sdecompressData_of_legal _ _ (by omega) (Nat.not_lt.2 hbits), unpackEntries_eq]
  refine ⟨_, _, rfl, rfl, rfl, ?_, ?_, hacc, rfl, rfl⟩
  · rw [List.length_map, extractFields_length, entryCount]
  · rw [extractFields_load_length _ _ _ hbits, fieldsOf, List.map_map, List.map_map]
    refine List.map_congr_left fun i _ => ?_
    obtain ⟨hindex, hrho⟩ := sparseEntry_mod_toNat hb hrbits (val data >>> (i * (b + rbits)))
    exact Prod.ext (hindex.trans (by rw [Nat.shiftRight_add])) hrho

/-- Settles O45: the entries are read from the bits of the whole slots, on which the two data agree. -/
theorem sdecompressIgnoresLeftoverBits : Obligations.SdecompressIgnoresLeftoverBits := by
  intro b rbits data data' s s' hpin hpin' hb hrbits hpos hbits hlen hagree
  have hfields : fieldsOf (b + rbits) (entryCount data.length (b + rbits)) (val data) =
      fieldsOf (b + rbits) (entryCount data.length (b + rbits)) (val data') := by
    rw [← fieldsOf_mod, entryCount, hagree, fieldsOf_mod]
  refine ⟨_, _, _, execSdecompress_of_bytes hpin _ _, execSdecompress_of_bytes hpin' _ _,
    sdecompressData_ok_responses s (by omega) hbits, ?_⟩
  rw [sdecompressData_ok_responses s' (by omega) (hlen ▸ hbits), hlen, hfields]

/-! ### The round trip -/

/-- The bytes of `n` slots hold `n` slots and the whole slots of the padding bits (R143). -/
theorem entryCount_bytesFor (n : Nat) {ebits : Nat} (hpos : 1 ≤ ebits) :
    entryCount (bytesFor (n * ebits)) ebits = n + (8 * bytesFor (n * ebits) - n * ebits) / ebits := by
  have hsplit : bytesFor (n * ebits) * 8 = 8 * bytesFor (n * ebits) - n * ebits + n * ebits := by
    have := le_mul_bytesFor (n * ebits)
    omega
  rw [entryCount, hsplit, Nat.add_mul_div_right _ _ hpos, Nat.add_comm]

/-- Settles O47: at most 7 padding bits fill no slot of 8 bits or more. -/
theorem spuriousEntryCount : Obligations.SpuriousEntryCount := by
  intro n ebits hpos p
  have hcount : entryCount (bytesFor (n * ebits)) ebits = n + p / ebits := entryCount_bytesFor n hpos
  have hpadding : p ≤ 7 := by
    unfold p bytesFor
    omega
  refine ⟨hcount, hpadding, fun h => ?_⟩
  rw [hcount, Nat.div_eq_of_lt (by omega), Nat.add_zero]

theorem fieldSum_replicate_zero (width k : Nat) : fieldSum width (List.replicate k 0) = 0 := by
  induction k with
  | zero => rfl
  | succ k ih => rw [List.replicate_succ, fieldSum_cons, ih, Nat.mul_zero]

/-- The slots above the last field of a sum of fields are zero (R102). -/
theorem fieldsOf_fieldSum_add {width : Nat} {fs : List Nat} (hfs : ∀ f ∈ fs, f < 2 ^ width) (k : Nat) :
    fieldsOf width (fs.length + k) (fieldSum width fs) = fs ++ List.replicate k 0 := by
  have hall : ∀ f ∈ fs ++ List.replicate k 0, f < 2 ^ width :=
    List.forall_mem_append.2 ⟨hfs, fun f hf => List.eq_of_mem_replicate hf ▸ Nat.two_pow_pos width⟩
  have hfields := fieldsOf_fieldSum hall
  rwa [fieldSum_append, fieldSum_replicate_zero, Nat.mul_zero, Nat.add_zero, List.length_append,
    List.length_replicate] at hfields

/-- In-range entries are read back from the sum of their fields, and the slots above it hold `(0, 0)` (R131, R145). -/
theorem map_sparseEntry_fieldsOf {b rbits : Nat} {es : List Entry} (hes : ∀ e ∈ es, EntryInRange b rbits e) (k : Nat) :
    (fieldsOf (b + rbits) (es.length + k) (fieldSum (b + rbits) (es.map (sparseField rbits)))).map
      (sparseEntry rbits) = es ++ List.replicate k ⟨0, 0⟩ := by
  have hfields := fieldsOf_fieldSum_add
    (List.forall_mem_map.2 fun e he => sparseField_lt rbits (hes e he).1) k
  have hback : (es.map (sparseField rbits)).map (sparseEntry rbits) = es := by
    rw [List.map_map]
    exact (List.map_congr_left fun e he => sparseEntry_sparseField_of_inRange (hes e he)).trans (List.map_id es)
  have hzero : sparseEntry rbits 0 = ⟨0, 0⟩ := by
    rw [sparseEntry, Nat.zero_shiftRight, Nat.zero_and]
    rfl
  rw [List.length_map] at hfields
  rw [hfields, List.map_append, hback, List.map_replicate, hzero]

/-- Settles O48: the packed value is the sum of the fields, and the slots counted in its bytes are the entries' and the
spurious ones. -/
theorem sparseRoundTrip : Obligations.SparseRoundTrip := by
  intro b rbits entries s hpin hb hrbits hpos hbits hentries
  have hval := val_slice_placeFields s
    (List.forall_mem_map.2 fun e he => sparseField_lt rbits (hentries e he).1) (by rwa [List.length_map])
  rw [List.length_map] at hval
  refine ⟨_, _, execScompress_of_entries hpin _ _, scompressEntries_ok_responses s (by omega) hbits,
    fun s' hpin' => ⟨_, execSdecompress_of_bytes hpin' _ _, ?_⟩⟩
  have hceiling := mul_le_accBits (bytesFor_le_of_le_ceiling hbits)
  have hcount := entryCount_bytesFor entries.length hpos
  have hspurious : 8 * bytesFor (entries.length * (b + rbits)) / (b + rbits) - entries.length =
      (8 * bytesFor (entries.length * (b + rbits)) - entries.length * (b + rbits)) / (b + rbits) := by
    rw [Nat.mul_comm 8, ← entryCount, hcount, Nat.mul_comm 8, Nat.add_sub_cancel_left]
  rw [sdecompressData_ok_responses s' (by omega) (by rwa [slice_length]), hval, slice_length, hcount, hspurious,
    map_sparseEntry_fieldsOf hentries]

end Sys2Proof.Machine

/-! Errors (O17, O18, O20, O21): a request leaves nothing that the next one shows (R158), an error gives no output
(R156), and the status is the first failing check in the order of R160, which fixes the errors of each operation
(R154). -/

namespace Sys2Proof.Machine

/-! ### After a request -/

/-- Settles O17: each request has one response, the block function's, in every idle block, so the second one gets it
with and without the first before it. -/
theorem earlierRequestLeavesNoTrace : Obligations.EarlierRequestLeavesNoTrace := by
  intro q₁ q₂ rest s hq₁ hq₂ hidle hreq
  obtain ⟨r₁, hf₁, hr₁⟩ := step_answers_blockFunction hq₁
  obtain ⟨r₂, hf₂, hr₂⟩ := step_answers_blockFunction hq₂
  obtain ⟨s₁, hs₁, hans₁⟩ := hr₁ (q₂ :: rest) s hidle hreq
  obtain ⟨s₂, hs₂, hans₂⟩ := hr₂ rest s₁ hans₁.inProgress_eq hans₁.requests_eq
  obtain ⟨u, hu, hans⟩ := hr₂ rest { s with requests := q₂ :: rest } hidle rfl
  refine ⟨s₁, s₂, u, r₁, r₂, hs₁, hans₁.responses_eq, hs₂, ?_, hu, hans.responses_eq,
    fun herr => (hans₁.unchanged_of_error herr).1, ?_⟩
  · rw [hans₂.responses_eq, accept_responses, hans₁.responses_eq, accept_responses, List.append_assoc,
      List.singleton_append]
  · rintro rfl
    exact Option.some.inj (hf₂.symm.trans hf₁)

/-- Settles O18: the one response is the error, which leaves `ACC` and `i`, and its form is that of R66. -/
theorem errorGivesNoOutput : Obligations.ErrorGivesNoOutput := by
  intro i s t e out hexec hresp
  obtain ⟨r, hans⟩ := answers_of_exec_next hexec
  obtain ⟨r', hwf, hresp'⟩ := exec_extendsWellFormed hexec
  have hr : r = ⟨.error e, out⟩ := List.append_singleton_inj.1 (hans.responses_eq.symm.trans hresp) |>.2
  have hr' : r' = ⟨.error e, out⟩ := List.append_singleton_inj.1 (hresp'.symm.trans hresp) |>.2
  subst hr hr'
  obtain ⟨hacc, hi⟩ := hans.unchanged_of_error nofun
  exact ⟨hwf.1 nofun, hacc, hi, hans.inProgress_eq⟩

/-! ### The status of each operation -/

/-- The column of R160 for `DPACK`. -/
def dpackStatus (binbits : Nat) (regs : List RegElem) : Status :=
  if binbits < 1 ∨ 64 < binbits then .error .invalidArgument
  else if 2 ^ 20 < regs.length * binbits then .error .capacityExceeded
  else if regs.any fun x => decide (x.toInt < 0 ∨ ((2 ^ binbits - 1 : Nat) : Int) < x.toInt) then .error .invalidArgument
  else .ok

/-- The column of R160 for `DUNPACK`. -/
def dunpackStatus (m : Int) (binbits : Nat) (data : List Byte) : Status :=
  if binbits < 1 ∨ 64 < binbits ∨ m < 0 then .error .invalidArgument
  else if ((2 ^ 20 : Nat) : Int) < m * binbits then .error .capacityExceeded
  else if (data.length : Int) < (m * binbits + 7) / 8 then .error .insufficientData
  else .ok

/-- The two columns of R160 for the sparse operations, which differ in `total_bits` only. -/
def sparseStatus (b rbits totalBits : Nat) : Status :=
  if 64 < b ∨ 64 < rbits ∨ b + rbits = 0 then .error .invalidArgument
  else if 2 ^ 20 < totalBits then .error .capacityExceeded
  else .ok

/-- In state `s` the operation answers with the status `st`. -/
def GivesStatus (i : Instr) (s : State) (st : Status) : Prop :=
  ∃ t out, exec i s = .next t ∧ t.responses = s.responses ++ [⟨st, out⟩]

theorem GivesStatus.unique {i : Instr} {s : State} {a b : Status} (ha : GivesStatus i s a) (hb : GivesStatus i s b) :
    a = b := by
  obtain ⟨t, out, ht, hresp⟩ := ha
  obtain ⟨t', out', ht', hresp'⟩ := hb
  rw [ht] at ht'
  cases ht'
  exact congrArg Response.status (List.append_singleton_inj.1 (hresp.symm.trans hresp')).2

/-- An operation that rejects its request gives the error's status. -/
theorem givesStatus_of_rejects {i : Instr} {s : State} {e : ErrorKind} {out : OutPayload}
    (h : ∃ t, exec i s = .next t ∧ t.responses = s.responses ++ [⟨.error e, out⟩] ∧ t.acc = s.acc) :
    GivesStatus i s (.error e) := by
  obtain ⟨t, ht, hresp, -⟩ := h
  exact ⟨t, out, ht, hresp⟩

theorem dpack_givesStatus (binbits : Nat) {regs : List RegElem} {s : State} (hpin : s.pin = .elements regs) :
    GivesStatus (.dpack binbits) s (dpackStatus binbits regs) := by
  unfold dpackStatus
  split_ifs with hw hc he
  · exact givesStatus_of_rejects (dpackRejectsWidth binbits regs s hpin hw)
  · exact givesStatus_of_rejects (dpackRejectsOverCeiling binbits regs s hpin (by omega) (by omega) hc)
  · obtain ⟨x, hx, hrange⟩ := List.any_eq_true.1 he
    exact givesStatus_of_rejects (dpackRejectsElement binbits regs x s hpin (by omega) (by omega) (Nat.not_lt.1 hc) hx
      (of_decide_eq_true hrange))
  · have hregs : ∀ x ∈ regs, ElementInRange binbits x := fun x hx => by
      have hrange := fun h => he (List.any_eq_true.2 ⟨x, hx, decide_eq_true h⟩)
      obtain ⟨hlow, hhigh⟩ := not_or.1 hrange
      exact ⟨Int.not_lt.1 hlow, Int.not_lt.1 hhigh⟩
    exact ⟨_, _, execDpack_of_elements hpin binbits,
      dpackRegisters_ok_responses s (by omega) (by omega) (Nat.not_lt.1 hc) hregs⟩

theorem dunpack_givesStatus (m : Int) (binbits : Nat) {data : List Byte} {s : State} (hpin : s.pin = .bytes data) :
    GivesStatus (.dunpack m binbits) s (dunpackStatus m binbits data) := by
  unfold dunpackStatus
  split_ifs with ha hc hd
  · exact givesStatus_of_rejects (dunpackRejectsArguments m binbits data s hpin ha)
  · exact givesStatus_of_rejects
      (dunpackRejectsOverCeiling m binbits data s hpin (by omega) (by omega) (by omega) hc)
  · exact givesStatus_of_rejects ((dunpackRejectsShortData m binbits data s hpin (by omega) (by omega) (by omega)
      (Int.not_lt.1 hc)).1 hd)
  · exact (dunpackRejectsShortData m binbits data s hpin (by omega) (by omega) (by omega)
      (Int.not_lt.1 hc)).2 (Int.not_lt.1 hd)

theorem scompress_rejects_widths {b rbits : Nat} {es : List Entry} {s : State} (hpin : s.pin = .entries es)
    (hw : 64 < b ∨ 64 < rbits ∨ b + rbits = 0) :
    ∃ t, exec (.scompress b rbits) s = .next t ∧
      t.responses = s.responses ++ [⟨.error .invalidArgument, .bytes []⟩] ∧ t.acc = s.acc := by
  rw [execScompress_of_entries hpin, scompressEntries_of_width _ _ hw]
  exact ⟨_, rfl, rfl, rfl⟩

theorem sdecompress_rejects_widths {b rbits : Nat} {data : List Byte} {s : State} (hpin : s.pin = .bytes data)
    (hw : 64 < b ∨ 64 < rbits ∨ b + rbits = 0) :
    ∃ t, exec (.sdecompress b rbits) s = .next t ∧
      t.responses = s.responses ++ [⟨.error .invalidArgument, .entries []⟩] ∧ t.acc = s.acc := by
  rw [execSdecompress_of_bytes hpin, sdecompressData_of_width _ _ hw]
  exact ⟨_, rfl, rfl, rfl⟩

theorem scompress_givesStatus (b rbits : Nat) {es : List Entry} {s : State} (hpin : s.pin = .entries es) :
    GivesStatus (.scompress b rbits) s (sparseStatus b rbits (es.length * (b + rbits))) := by
  unfold sparseStatus
  split_ifs with hw hc
  · exact givesStatus_of_rejects (scompress_rejects_widths hpin hw)
  · exact givesStatus_of_rejects
      (scompressRejectsOverCeiling b rbits es s hpin (by omega) (by omega) (by omega) hc)
  · exact ⟨_, _, execScompress_of_entries hpin b rbits, scompressEntries_ok_responses s hw (Nat.not_lt.1 hc)⟩

theorem sdecompress_givesStatus (b rbits : Nat) {data : List Byte} {s : State} (hpin : s.pin = .bytes data) :
    GivesStatus (.sdecompress b rbits) s (sparseStatus b rbits (8 * data.length)) := by
  unfold sparseStatus
  split_ifs with hw hc
  · exact givesStatus_of_rejects (sdecompress_rejects_widths hpin hw)
  · exact givesStatus_of_rejects
      ((sdecompressRejectsOverCeiling b rbits data s hpin (by omega) (by omega) (by omega)).1 hc)
  · exact ⟨_, _, execSdecompress_of_bytes hpin b rbits, sdecompressData_ok_responses s hw (Nat.not_lt.1 hc)⟩

/-- Settles O20: an illegal word is answered before its operation, and each operation follows its column. -/
theorem statusFollowsCheckOrder : Obligations.StatusFollowsCheckOrder :=
  ⟨fun _ _ _ _ hidle hreq hwhy => ⟨_, _, step_of_illegal hidle hreq hwhy, rfl⟩,
   fun binbits _ _ hpin => dpack_givesStatus binbits hpin,
   fun m binbits _ _ hpin => dunpack_givesStatus m binbits hpin,
   fun b rbits _ _ hpin => scompress_givesStatus b rbits hpin,
   fun b rbits _ _ hpin => sdecompress_givesStatus b rbits hpin⟩

/-! ### The errors of each operation -/

theorem dpackStatus_ne_insufficientData (binbits : Nat) (regs : List RegElem) :
    dpackStatus binbits regs ≠ .error .insufficientData := by
  unfold dpackStatus
  split_ifs <;> nofun

theorem sparseStatus_ne_insufficientData (b rbits totalBits : Nat) :
    sparseStatus b rbits totalBits ≠ .error .insufficientData := by
  unfold sparseStatus
  split_ifs <;> nofun

theorem sparseStatus_eq_invalidArgument_iff (b rbits totalBits : Nat) :
    sparseStatus b rbits totalBits = .error .invalidArgument ↔ 64 < b ∨ 64 < rbits ∨ b + rbits = 0 := by
  unfold sparseStatus
  split_ifs with hw hc
  · exact iff_of_true rfl hw
  · exact iff_of_false nofun hw
  · exact iff_of_false nofun hw

/-- Only the column of `DUNPACK` has `InsufficientData` (R152, R154). -/
theorem eq_dunpack_of_insufficientData {i : Instr} {s : State} (h : GivesStatus i s (.error .insufficientData)) :
    ∃ m binbits, i = .dunpack m binbits := by
  have ⟨_, _, ht, _⟩ := h
  cases i with
  | dpack binbits =>
    obtain ⟨regs, hpin, -⟩ := execDpack_next ht
    exact absurd ((dpack_givesStatus binbits hpin).unique h) (dpackStatus_ne_insufficientData _ _)
  | dunpack m binbits => exact ⟨m, binbits, rfl⟩
  | scompress b rbits =>
    obtain ⟨es, hpin, -⟩ := execScompress_next ht
    exact absurd ((scompress_givesStatus b rbits hpin).unique h) (sparseStatus_ne_insufficientData _ _ _)
  | sdecompress b rbits =>
    obtain ⟨data, hpin, -⟩ := execSdecompress_next ht
    exact absurd ((sdecompress_givesStatus b rbits hpin).unique h) (sparseStatus_ne_insufficientData _ _ _)

/-- A sparse operation gives `InvalidArgument` for its widths only (R133, R154). -/
theorem sparse_widths_of_invalidArgument {i : Instr} {b rbits : Nat} {s : State}
    (hi : i = .scompress b rbits ∨ i = .sdecompress b rbits) (h : GivesStatus i s (.error .invalidArgument)) :
    64 < b ∨ 64 < rbits ∨ b + rbits = 0 := by
  have ⟨_, _, ht, _⟩ := h
  obtain rfl | rfl := hi
  · obtain ⟨es, hpin, -⟩ := execScompress_next ht
    exact (sparseStatus_eq_invalidArgument_iff ..).1 ((scompress_givesStatus b rbits hpin).unique h)
  · obtain ⟨data, hpin, -⟩ := execSdecompress_next ht
    exact (sparseStatus_eq_invalidArgument_iff ..).1 ((sdecompress_givesStatus b rbits hpin).unique h)

/-- The operation of this name reports the error on some request. -/
def Reports (name : String) (e : ErrorKind) : Prop :=
  ∃ i s t out, i.mnemonic = name ∧ exec i s = .next t ∧ t.responses = s.responses ++ [⟨.error e, out⟩]

theorem reports_of_rejects {i : Instr} {s : State} {e : ErrorKind} {out : OutPayload}
    (h : ∃ t, exec i s = .next t ∧ t.responses = s.responses ++ [⟨.error e, out⟩] ∧ t.acc = s.acc) :
    Reports i.mnemonic e := by
  obtain ⟨t, out, ht, hresp⟩ := givesStatus_of_rejects h
  exact ⟨i, s, t, out, rfl, ht, hresp⟩

/-- The state of R32 with this payload at `PIN`. -/
def resetWithPin (p : InPayload) : State := { State.reset with pin := p }

theorem dpack_reports : Reports "DPACK" .invalidArgument ∧ Reports "DPACK" .capacityExceeded :=
  ⟨reports_of_rejects (dpackRejectsWidth 0 [] (resetWithPin (.elements [])) rfl (by omega)),
   reports_of_rejects (dpackRejectsOverCeiling 64 (List.replicate 16385 0#65)
    (resetWithPin (.elements (List.replicate 16385 0#65))) rfl (by omega) (by omega)
    (by rw [List.length_replicate]; omega))⟩

theorem dunpack_reports :
    Reports "DUNPACK" .invalidArgument ∧ Reports "DUNPACK" .insufficientData ∧ Reports "DUNPACK" .capacityExceeded :=
  ⟨reports_of_rejects (dunpackRejectsArguments (-1) 1 [] (resetWithPin (.bytes [])) rfl (by omega)),
   reports_of_rejects ((dunpackRejectsShortData 3 4 [] (resetWithPin (.bytes [])) rfl (by omega) (by omega) (by omega)
    (by decide)).1 (by decide)),
   reports_of_rejects (dunpackRejectsOverCeiling 1048577 1 [] (resetWithPin (.bytes [])) rfl (by omega) (by omega)
    (by omega) (by decide))⟩

theorem scompress_reports : Reports "SCOMPRESS" .invalidArgument ∧ Reports "SCOMPRESS" .capacityExceeded :=
  ⟨reports_of_rejects (scompress_rejects_widths (b := 0) (rbits := 0) (s := resetWithPin (.entries [])) rfl (by omega)),
   reports_of_rejects (scompressRejectsOverCeiling 64 64 (List.replicate 8193 ⟨0, 0⟩)
    (resetWithPin (.entries (List.replicate 8193 ⟨0, 0⟩))) rfl (by omega) (by omega) (by omega)
    (by rw [List.length_replicate]; omega))⟩

theorem sdecompress_reports : Reports "SDECOMPRESS" .invalidArgument ∧ Reports "SDECOMPRESS" .capacityExceeded :=
  ⟨reports_of_rejects (sdecompress_rejects_widths (b := 0) (rbits := 0) (s := resetWithPin (.bytes [])) rfl (by omega)),
   reports_of_rejects ((sdecompressRejectsOverCeiling 4 6 (List.replicate 131073 0#8)
    (resetWithPin (.bytes (List.replicate 131073 0#8))) rfl (by omega) (by omega) (by omega)).1
    (by rw [List.length_replicate]; omega))⟩

/-- Settles O21: the columns of R160 leave out the errors marked "no", and a request per error marked "yes" reports
it. -/
theorem errorsEachOperationReports : Obligations.ErrorsEachOperationReports := by
  refine ⟨fun i s t out hexec hresp => eq_dunpack_of_insufficientData ⟨t, out, hexec, hresp⟩,
    fun i b rbits s t out hi hexec hresp => sparse_widths_of_invalidArgument hi ⟨t, out, hexec, hresp⟩, ?_⟩
  obtain ⟨hpack, hpack'⟩ := dpack_reports
  obtain ⟨hunpack, hunpack', hunpack''⟩ := dunpack_reports
  obtain ⟨hcompress, hcompress'⟩ := scompress_reports
  obtain ⟨hdecompress, hdecompress'⟩ := sdecompress_reports
  simp only [List.forall_mem_cons]
  exact ⟨hpack, hpack', hunpack, hunpack', hunpack'', hcompress, hcompress', hdecompress, hdecompress',
    List.forall_mem_nil _⟩

end Sys2Proof.Machine

/-! A block that is not idle (O10): the third case of `step`, beside an idle block with and without a request (R183). -/

namespace Sys2Proof.Machine

theorem step_of_inProgress {s : State} (hbusy : s.inProgress = true) : step s = .refused .operationInProgress := by
  simp [step, hbusy]

/-- Settles O10: `step` looks at `inProgress` before it looks for a request. -/
theorem stepWhileInProgressIsRefused : Obligations.StepWhileInProgressIsRefused := fun _ =>
  step_of_inProgress

end Sys2Proof.Machine
